-- ==== Sys2Proof/Word.lean ====
section
/-! DEFINITION. The word and byte types. Every state word, operand word and result word is an unsigned 32-bit value
(spec R7, R8, R31); bytes occur only on the host's side (R71). -/

namespace Sys2Proof

/-- An unsigned 32-bit word, bit 0 the least significant (R7, R8). -/
abbrev Word := BitVec 32

/-- A byte of a message or a digest (R330, R336); the engine itself has no bytes (R71). -/
abbrev Byte := BitVec 8

/-- The 16 words of one 512-bit block (R6). -/
abbrev Block := Vector Word 16

end Sys2Proof
end

