-- ==== Sys2Proof/Syntax.lean ====
section
/-! DEFINITION. The command set (spec R105): one constructor per row of spec/opcode_table.json. A constructor carries what
a request of that opcode carries once its reserved bits and its operand count are right: the ARG byte of format CMD-I
unchecked (its range is checked by the command, R362 step 5), the 5-bit amount of format CMD-A, and the operand words. -/

namespace Sys2Proof

inductive Instr where
  /-- INIT, 0x01 (R200). -/
  | init
  /-- WRITE_H, 0x02 (R201). -/
  | writeH (index : BitVec 8) (x : Word)
  /-- READ_H, 0x03 (R202). -/
  | readH (index : BitVec 8)
  /-- WRITE_V, 0x04 (R203). -/
  | writeV (index : BitVec 8) (x : Word)
  /-- READ_V, 0x05 (R204). -/
  | readV (index : BitVec 8)
  /-- WRITE_W, 0x06 (R205). -/
  | writeW (index : BitVec 8) (x : Word)
  /-- READ_W, 0x07 (R206). -/
  | readW (index : BitVec 8)
  /-- READ_K, 0x08 (R207). -/
  | readK (index : BitVec 8)
  /-- READ_IV, 0x09 (R208). -/
  | readIv (index : BitVec 8)
  /-- READ_STATUS, 0x0A (R209). -/
  | readStatus
  /-- READ_ERRINFO, 0x0B (R210). -/
  | readErrinfo
  /-- LOAD_BLOCK, 0x10 (R251). -/
  | loadBlock (block : Block)
  /-- EXPAND_STEP, 0x11 (R252). -/
  | expandStep (index : BitVec 8)
  /-- EXPAND_ALL, 0x12 (R253). -/
  | expandAll
  /-- LOAD_V, 0x20 (R280). -/
  | loadV
  /-- ROUND, 0x21 (R281). -/
  | round (index : BitVec 8)
  /-- ROUNDS_ALL, 0x22 (R282). -/
  | roundsAll
  /-- ACCUM, 0x30 (R310). -/
  | accum
  /-- COMPRESS_BLOCK, 0x31 (R311). -/
  | compressBlock (block : Block)
  /-- ROTR, 0x40 (R160). -/
  | rotr (amount : BitVec 5) (x : Word)
  /-- SHR, 0x41 (R161). -/
  | shr (amount : BitVec 5) (x : Word)
  /-- NOT, 0x42 (R162). -/
  | not (x : Word)
  /-- AND, 0x43 (R163). -/
  | and (x y : Word)
  /-- XOR, 0x44 (R164). -/
  | xor (x y : Word)
  /-- ADD, 0x45 (R165). -/
  | add (x y : Word)
  /-- CH, 0x46 (R166). -/
  | ch (x y z : Word)
  /-- MAJ, 0x47 (R167). -/
  | maj (x y z : Word)
  /-- BSIG0, 0x48 (R168). -/
  | bsig0 (x : Word)
  /-- BSIG1, 0x49 (R169). -/
  | bsig1 (x : Word)
  /-- SSIG0, 0x4A (R170). -/
  | ssig0 (x : Word)
  /-- SSIG1, 0x4B (R171). -/
  | ssig1 (x : Word)
  deriving DecidableEq, Repr

end Sys2Proof
end

