-- ==== Sys2Proof/WellFormed.lean ====
section
/-! DEFINITION. When an instruction is well-formed as syntax: its ARG byte lies in the opcode's index range (spec R105).
Every other constraint of a request (reserved bits, amount below 32, operand count) is met by the type of `Instr`. A request
whose instruction is not well-formed fails with INDEX_RANGE (R362 step 5). -/

namespace Sys2Proof

/-- The index range of R105, from the least to the greatest legal ARG. -/
def indexWithin (lo hi : Nat) (index : BitVec 8) : Bool := decide (lo ≤ index.toNat) && decide (index.toNat ≤ hi)

/-- R105: H, V and IV indexes are 0..7, W, K and round indexes 0..63, EXPAND_STEP indexes 16..63. -/
def Instr.wellFormed : Instr → Bool
  | .writeH index _ => indexWithin 0 7 index
  | .readH index => indexWithin 0 7 index
  | .writeV index _ => indexWithin 0 7 index
  | .readV index => indexWithin 0 7 index
  | .writeW index _ => indexWithin 0 63 index
  | .readW index => indexWithin 0 63 index
  | .readK index => indexWithin 0 63 index
  | .readIv index => indexWithin 0 7 index
  | .expandStep index => indexWithin 16 63 index
  | .round index => indexWithin 0 63 index
  | .init => true
  | .readStatus => true
  | .readErrinfo => true
  | .loadBlock _ => true
  | .expandAll => true
  | .loadV => true
  | .roundsAll => true
  | .accum => true
  | .compressBlock _ => true
  | .rotr _ _ => true
  | .shr _ _ => true
  | .not _ => true
  | .and _ _ => true
  | .xor _ _ => true
  | .add _ _ => true
  | .ch _ _ _ => true
  | .maj _ _ _ => true
  | .bsig0 _ => true
  | .bsig1 _ => true
  | .ssig0 _ => true
  | .ssig1 _ => true

end Sys2Proof
end

