-- ==== Sys2Proof/Decode.lean ====
section
/-! DEFINITION. Requests, the fields of a command word (spec R101), the opcode map (R105), the decoder (checks 2 to 4 of
R362, by name), the classification of a command word (R109), and the encoder written from the same map. Decoding is total:
every command word with every operand list gives an instruction or the name of the check it fails. -/

namespace Sys2Proof

/-- The error codes of R360. `locked` is raised only for a request that meets the locked engine (R364). -/
inductive ErrorCode where
  /-- 0x01: OP is not assigned (R106). -/
  | illegalOpcode
  /-- 0x02: reserved bits are set (R107). -/
  | reservedBits
  /-- 0x03: the operand count is not the opcode's (R103). -/
  | operandCount
  /-- 0x04: a CMD-I index is outside the opcode's range (R105). -/
  | indexRange
  /-- 0x05: ERR = 1 and the command is neither READ_STATUS nor READ_ERRINFO (R364). -/
  | locked
  deriving DecidableEq, Repr

/-- The 8-bit code of a NAK and of STATUS.ERRCODE (R360). -/
def ErrorCode.code : ErrorCode → BitVec 8
  | .illegalOpcode => 0x01
  | .reservedBits => 0x02
  | .operandCount => 0x03
  | .indexRange => 0x04
  | .locked => 0x05

/-- A request: one command word and its operand words; the port frames it, so the count is known (R100). -/
structure Request where
  cmd : Word
  ops : List Word
  deriving DecidableEq, Repr

/-- OP = cmd[31:24] (R101). -/
def opField (cmd : Word) : BitVec 8 := cmd.extractLsb' 24 8

/-- RSV = cmd[23:8] (R101). -/
def rsvField (cmd : Word) : BitVec 16 := cmd.extractLsb' 8 16

/-- ARG = cmd[7:0] (R101). -/
def argField (cmd : Word) : BitVec 8 := cmd.extractLsb' 0 8

/-- The amount ARG[4:0] of format CMD-A (R102). -/
def amountField (arg : BitVec 8) : BitVec 5 := arg.extractLsb' 0 5

/-- The reserved bits ARG[7:5] of format CMD-A (R102). -/
def amountReserved (arg : BitVec 8) : BitVec 3 := arg.extractLsb' 5 3

/-- The well-formed command word OP * 2^24 + ARG (R101). -/
def cmdWord (op arg : BitVec 8) : Word := BitVec.ofNat 32 (op.toNat * 2 ^ 24 + arg.toNat)

/-- How ARG is read (R102). -/
inductive Format where
  /-- No argument: ARG is reserved. -/
  | cmdN
  /-- An 8-bit index. -/
  | cmdI
  /-- A 5-bit amount; ARG[7:5] is reserved. -/
  | cmdA
  deriving DecidableEq, Repr

/-- One row of the opcode map (R105). `lo` and `hi` bound ARG; `operands` is N and `results` is M. -/
structure Row where
  op : BitVec 8
  mnemonic : String
  format : Format
  lo : Nat
  hi : Nat
  operands : Nat
  results : Nat
  deriving DecidableEq, Repr

/-- Group 0x0_ of R105: initialisation and state access. -/
def stateRows : List Row :=
  [⟨0x01, "INIT", .cmdN, 0, 0, 0, 0⟩,
   ⟨0x02, "WRITE_H", .cmdI, 0, 7, 1, 0⟩,
   ⟨0x03, "READ_H", .cmdI, 0, 7, 0, 1⟩,
   ⟨0x04, "WRITE_V", .cmdI, 0, 7, 1, 0⟩,
   ⟨0x05, "READ_V", .cmdI, 0, 7, 0, 1⟩,
   ⟨0x06, "WRITE_W", .cmdI, 0, 63, 1, 0⟩,
   ⟨0x07, "READ_W", .cmdI, 0, 63, 0, 1⟩,
   ⟨0x08, "READ_K", .cmdI, 0, 63, 0, 1⟩,
   ⟨0x09, "READ_IV", .cmdI, 0, 7, 0, 1⟩,
   ⟨0x0A, "READ_STATUS", .cmdN, 0, 0, 0, 1⟩,
   ⟨0x0B, "READ_ERRINFO", .cmdN, 0, 0, 0, 1⟩]

/-- Groups 0x1_, 0x2_ and 0x3_ of R105: schedule, rounds, accumulator. -/
def blockRows : List Row :=
  [⟨0x10, "LOAD_BLOCK", .cmdN, 0, 0, 16, 0⟩,
   ⟨0x11, "EXPAND_STEP", .cmdI, 16, 63, 0, 0⟩,
   ⟨0x12, "EXPAND_ALL", .cmdN, 0, 0, 0, 0⟩,
   ⟨0x20, "LOAD_V", .cmdN, 0, 0, 0, 0⟩,
   ⟨0x21, "ROUND", .cmdI, 0, 63, 0, 0⟩,
   ⟨0x22, "ROUNDS_ALL", .cmdN, 0, 0, 0, 0⟩,
   ⟨0x30, "ACCUM", .cmdN, 0, 0, 0, 0⟩,
   ⟨0x31, "COMPRESS_BLOCK", .cmdN, 0, 0, 16, 0⟩]

/-- Group 0x4_ of R105: the word-operations library. -/
def wordRows : List Row :=
  [⟨0x40, "ROTR", .cmdA, 0, 31, 1, 1⟩,
   ⟨0x41, "SHR", .cmdA, 0, 31, 1, 1⟩,
   ⟨0x42, "NOT", .cmdN, 0, 0, 1, 1⟩,
   ⟨0x43, "AND", .cmdN, 0, 0, 2, 1⟩,
   ⟨0x44, "XOR", .cmdN, 0, 0, 2, 1⟩,
   ⟨0x45, "ADD", .cmdN, 0, 0, 2, 1⟩,
   ⟨0x46, "CH", .cmdN, 0, 0, 3, 1⟩,
   ⟨0x47, "MAJ", .cmdN, 0, 0, 3, 1⟩,
   ⟨0x48, "BSIG0", .cmdN, 0, 0, 1, 1⟩,
   ⟨0x49, "BSIG1", .cmdN, 0, 0, 1, 1⟩,
   ⟨0x4A, "SSIG0", .cmdN, 0, 0, 1, 1⟩,
   ⟨0x4B, "SSIG1", .cmdN, 0, 0, 1, 1⟩]

/-- The opcode map of R105. -/
def opcodeTable : List Row := stateRows ++ blockRows ++ wordRows

/-- The row OP selects; a decoder selects the row by OP alone (R109). -/
def rowOf (op : BitVec 8) : Option Row := opcodeTable.find? (fun r => r.op == op)

/-- R107: RSV is not 0, or ARG is not 0 in CMD-N, or ARG[7:5] is not 0 in CMD-A. -/
def reservedBitsSet (format : Format) (cmd : Word) : Bool :=
  rsvField cmd != 0 ||
    match format with
    | .cmdN => argField cmd != 0
    | .cmdI => false
    | .cmdA => amountReserved (argField cmd) != 0

/-- What R109 makes of a command word alone. -/
inductive WordClass where
  | illegal
  | reservedBits
  | indexRange
  | command (op arg : BitVec 8)
  deriving DecidableEq, Repr

/-- The decoding procedure of R109, total on all command words. -/
def classify (cmd : Word) : WordClass :=
  match rowOf (opField cmd) with
  | none => .illegal
  | some r =>
    if reservedBitsSet r.format cmd then .reservedBits
    else if r.format == .cmdI && !indexWithin r.lo r.hi (argField cmd) then .indexRange
    else .command (opField cmd) (argField cmd)

/-- An instruction of no operand word. -/
def nullary (ops : List Word) (i : Instr) : Option Instr :=
  match ops with
  | [] => some i
  | _ => none

/-- An instruction of one operand word. -/
def unary (ops : List Word) (f : Word → Instr) : Option Instr :=
  match ops with
  | [x] => some (f x)
  | _ => none

/-- An instruction of two operand words. -/
def binary (ops : List Word) (f : Word → Word → Instr) : Option Instr :=
  match ops with
  | [x, y] => some (f x y)
  | _ => none

/-- An instruction of three operand words. -/
def ternary (ops : List Word) (f : Word → Word → Word → Instr) : Option Instr :=
  match ops with
  | [x, y, z] => some (f x y z)
  | _ => none

/-- An instruction of one block of 16 operand words. -/
def blockary (ops : List Word) (f : Block → Instr) : Option Instr :=
  if size : ops.length = 16 then some (f ⟨⟨ops⟩, size⟩) else none

/-- The instruction of an assigned OP, its ARG byte and its operand words (R105). -/
def build (op arg : BitVec 8) (ops : List Word) : Option Instr :=
  match op.toNat with
  | 0x01 => nullary ops .init
  | 0x02 => unary ops (.writeH arg)
  | 0x03 => nullary ops (.readH arg)
  | 0x04 => unary ops (.writeV arg)
  | 0x05 => nullary ops (.readV arg)
  | 0x06 => unary ops (.writeW arg)
  | 0x07 => nullary ops (.readW arg)
  | 0x08 => nullary ops (.readK arg)
  | 0x09 => nullary ops (.readIv arg)
  | 0x0A => nullary ops .readStatus
  | 0x0B => nullary ops .readErrinfo
  | 0x10 => blockary ops .loadBlock
  | 0x11 => nullary ops (.expandStep arg)
  | 0x12 => nullary ops .expandAll
  | 0x20 => nullary ops .loadV
  | 0x21 => nullary ops (.round arg)
  | 0x22 => nullary ops .roundsAll
  | 0x30 => nullary ops .accum
  | 0x31 => blockary ops .compressBlock
  | 0x40 => unary ops (.rotr (amountField arg))
  | 0x41 => unary ops (.shr (amountField arg))
  | 0x42 => unary ops .not
  | 0x43 => binary ops .and
  | 0x44 => binary ops .xor
  | 0x45 => binary ops .add
  | 0x46 => ternary ops .ch
  | 0x47 => ternary ops .maj
  | 0x48 => unary ops .bsig0
  | 0x49 => unary ops .bsig1
  | 0x4A => unary ops .ssig0
  | 0x4B => unary ops .ssig1
  | _ => none

/-- Checks 2, 3 and 4 of R362, in that order, then the instruction. The index range (check 5) is the command's own, since
R362 puts it after the operand count. -/
def decode (r : Request) : Except ErrorCode Instr :=
  match rowOf (opField r.cmd) with
  | none => .error .illegalOpcode
  | some row =>
    if reservedBitsSet row.format r.cmd then .error .reservedBits
    else if r.ops.length ≠ row.operands then .error .operandCount
    else
      match build row.op (argField r.cmd) r.ops with
      | some i => .ok i
      | none => .error .operandCount

/-- The OP of an instruction (R105). -/
def Instr.op : Instr → BitVec 8
  | .init => 0x01
  | .writeH _ _ => 0x02
  | .readH _ => 0x03
  | .writeV _ _ => 0x04
  | .readV _ => 0x05
  | .writeW _ _ => 0x06
  | .readW _ => 0x07
  | .readK _ => 0x08
  | .readIv _ => 0x09
  | .readStatus => 0x0A
  | .readErrinfo => 0x0B
  | .loadBlock _ => 0x10
  | .expandStep _ => 0x11
  | .expandAll => 0x12
  | .loadV => 0x20
  | .round _ => 0x21
  | .roundsAll => 0x22
  | .accum => 0x30
  | .compressBlock _ => 0x31
  | .rotr _ _ => 0x40
  | .shr _ _ => 0x41
  | .not _ => 0x42
  | .and _ _ => 0x43
  | .xor _ _ => 0x44
  | .add _ _ => 0x45
  | .ch _ _ _ => 0x46
  | .maj _ _ _ => 0x47
  | .bsig0 _ => 0x48
  | .bsig1 _ => 0x49
  | .ssig0 _ => 0x4A
  | .ssig1 _ => 0x4B

/-- The ARG byte of an instruction (R102): its index, its amount zero-extended, or 0. -/
def Instr.arg : Instr → BitVec 8
  | .writeH index _ => index
  | .readH index => index
  | .writeV index _ => index
  | .readV index => index
  | .writeW index _ => index
  | .readW index => index
  | .readK index => index
  | .readIv index => index
  | .expandStep index => index
  | .round index => index
  | .rotr amount _ => amount.setWidth 8
  | .shr amount _ => amount.setWidth 8
  | .init => 0
  | .readStatus => 0
  | .readErrinfo => 0
  | .loadBlock _ => 0
  | .expandAll => 0
  | .loadV => 0
  | .roundsAll => 0
  | .accum => 0
  | .compressBlock _ => 0
  | .not _ => 0
  | .and _ _ => 0
  | .xor _ _ => 0
  | .add _ _ => 0
  | .ch _ _ _ => 0
  | .maj _ _ _ => 0
  | .bsig0 _ => 0
  | .bsig1 _ => 0
  | .ssig0 _ => 0
  | .ssig1 _ => 0

/-- The operand words of an instruction, op[0] first (R103). -/
def Instr.operands : Instr → List Word
  | .writeH _ x => [x]
  | .writeV _ x => [x]
  | .writeW _ x => [x]
  | .loadBlock block => block.toList
  | .compressBlock block => block.toList
  | .rotr _ x => [x]
  | .shr _ x => [x]
  | .not x => [x]
  | .and x y => [x, y]
  | .xor x y => [x, y]
  | .add x y => [x, y]
  | .ch x y z => [x, y, z]
  | .maj x y z => [x, y, z]
  | .bsig0 x => [x]
  | .bsig1 x => [x]
  | .ssig0 x => [x]
  | .ssig1 x => [x]
  | .init => []
  | .readH _ => []
  | .readV _ => []
  | .readW _ => []
  | .readK _ => []
  | .readIv _ => []
  | .readStatus => []
  | .readErrinfo => []
  | .expandStep _ => []
  | .expandAll => []
  | .loadV => []
  | .round _ => []
  | .roundsAll => []
  | .accum => []

/-- The request that carries an instruction (R101, R103). -/
def encode (i : Instr) : Request := ⟨cmdWord i.op i.arg, i.operands⟩

/-- How many operand words the map gives an OP, 0 for an unassigned one (R103, R105). -/
def operandCountOf (op : BitVec 8) : Nat :=
  match rowOf op with
  | some row => row.operands
  | none => 0

/-- `count` words of 32 bits, the least significant first. -/
def lowWords : Nat → Nat → List Word
  | 0, _ => []
  | count + 1, bits => BitVec.ofNat 32 bits :: lowWords count (bits / 2 ^ 32)

/-- The request whose bits are `w`, numbered as spec/opcode_table.json numbers them: the command word is bits 31..0, operand
word j is bits 32*(j+1)+31..32*(j+1); bits from `nbits` up are 0. The request carries as many operand words as its OP asks
for, since the framing that gives the count has no bits in the table (R103). -/
def tableRequest (nbits w : Nat) : Request :=
  let bits := w % 2 ^ nbits
  let cmd : Word := BitVec.ofNat 32 bits
  ⟨cmd, lowWords (operandCountOf (opField cmd)) (bits / 2 ^ 32)⟩

/-- The instruction the decoder reads from the table's word. -/
def decodeTableWord (nbits w : Nat) : Option Instr :=
  match decode (tableRequest nbits w) with
  | .ok i => some i
  | .error _ => none

end Sys2Proof
end

