-- ==== Sys2Proof/Config.lean ====
section
/-! DEFINITION. The fixed parameters of the engine and of the host's padding (spec R6: "none is left to the model as an
argument"), and the one free value: what H, V and W hold after a reset (R44 "unspecified"). The sizes of H, V (8 words), W
and K (64 words) stand as numerals in the types that hold them. -/

namespace Sys2Proof

/-- The three arrays whose words carry a definedness mark (R43); the `name` of an UndefinedRead (R366). -/
inductive Bank where
  /-- The hash state (R32). -/
  | H
  /-- The working variables (R33). -/
  | V
  /-- The message schedule (R34). -/
  | W
  deriving DecidableEq, Repr

end Sys2Proof

namespace Sys2Proof.Config

/-- FREE VALUE, log entry 1: the word at an index of an array after the engine's `resets`-th reset, before a command writes
it. "On the hardware, such a read returns some value the source does not fix" (R43). -/
opaque unspecified (bank : Bank) (index resets : Nat) : Word

/-- Bits of one block (R6). -/
abbrev blockBits : Nat := 512

/-- Bytes of one block (R6). -/
abbrev blockBytes : Nat := 64

/-- Words taken from a block (R6). -/
abbrev blockWords : Nat := 16

/-- Words of the message schedule (R6). -/
abbrev scheduleWords : Nat := 64

/-- Rounds per block (R6). -/
abbrev roundCount : Nat := 64

/-- Words of the hash state, of the working variables and of a digest (R6). -/
abbrev hashWords : Nat := 8

/-- Bits of the message-length field of the padding (R6, R331). -/
abbrev lengthFieldBits : Nat := 64

end Sys2Proof.Config
end

