-- ==== Sys2Proof/Machine/State.lean ====
section
/-! DEFINITION. The state of the engine (spec R30, R43), the port's two lists (R100, R400), the fault and refusal
types, and the state after reset (R44). There is no byte-addressed memory (R70), no program counter (R40) and no flag (R41). -/

namespace Sys2Proof.Machine

/-- One word of H, V or W with its definedness mark (R43). A word holds a value whether or not its mark is set: while it is
clear, one the spec does not fix. -/
structure MarkedWord where
  value : Word
  defined : Bool
  deriving DecidableEq, Repr

/-- UndefinedRead(name, index) of R43 and R366: a command that passed every check read a word whose mark is clear. It is
"a fault of the model and has no hardware response", so `step` goes on as the hardware does and notes it in
`State.undefinedRead`; the spec's model that stops there is `modelStep` (Machine/ModelFault.lean; log entry 9). -/
structure UndefinedRead where
  name : Bank
  index : Nat
  deriving DecidableEq, Repr

/-- Why the machine stops: nothing makes this hardware stop. Its errors are answered by NAK (R361, R368), and of the one
fault the spec has, UndefinedRead, it says "The hardware itself does not detect the read" (R366). -/
inductive Fault where
  deriving DecidableEq, Repr

/-- Instructions without a meaning. -/
inductive Refusal where
  /-- An instruction that has no meaning yet, by its mnemonic. No arm of `exec` answers it: every command has its meaning.
  Safe: the machine would stop where the hardware goes on. -/
  | notModelled (mnemonic : String)
  deriving DecidableEq, Repr

/-- The engine's answer to one request (R100, R104). -/
inductive Response where
  /-- The command passed every check; its result words. -/
  | ack (results : List Word)
  /-- The command failed a check; the 8-bit error code, and no result words. -/
  | nak (code : BitVec 8)
  deriving DecidableEq, Repr

/-- What the host can do to the engine: issue a request (R100), or assert reset between two transactions (R400). -/
inductive HostAction where
  | request (r : Request)
  | reset
  deriving DecidableEq, Repr

/-- The architectural state of R30, the model-only state of R43 and R366, and the port. -/
structure State where
  /-- H[0..7], the hash state (R32). -/
  h : Vector MarkedWord 8
  /-- V[0..7] = a..h, the working variables (R33). -/
  v : Vector MarkedWord 8
  /-- W[0..63], the message schedule (R34). -/
  w : Vector MarkedWord 64
  /-- K[0..63], the round-constant ROM (R35, R37). -/
  k : Vector Word 64
  /-- IV[0..7], the initial-hash ROM (R36, R37). -/
  iv : Vector Word 8
  /-- STATUS.ERR (R38). -/
  err : Bool
  /-- STATUS.ERRCODE (R38). -/
  errCode : BitVec 8
  /-- ERRINFO (R39). -/
  errInfo : Word
  /-- Model-only (R366): the first undefined word read since the last reset. While it is `none`, nothing the engine has
  answered since rests on a value the spec does not fix; no command reads it. -/
  undefinedRead : Option UndefinedRead
  /-- The model's own: how many resets there were, so that each leaves its own unspecified words (log entry 1). -/
  resets : Nat
  /-- The host's actions not yet taken, the next one first (R100, R400; log entry 2). -/
  inbox : List HostAction
  /-- The responses given so far, the latest first (R365; log entry 3). -/
  responses : List Response
  deriving DecidableEq, Repr

/-- An array after a reset: every word undefined, holding a value that nothing fixes (R43, R44; log entry 1). -/
def unspecifiedWords (bank : Bank) (n resets : Nat) : Vector MarkedWord n :=
  ⟨⟨(List.range n).map fun i => ⟨Config.unspecified bank i resets, false⟩⟩, by simp⟩

/-- The state after a reset that `resets` resets preceded (R44, R400), with no host action waiting and no response given. -/
def State.afterReset (resets : Nat) : State where
  h := unspecifiedWords .H 8 resets
  v := unspecifiedWords .V 8 resets
  w := unspecifiedWords .W 64 resets
  k := romK
  iv := romIv
  err := false
  errCode := 0x00
  errInfo := 0x00000000
  undefinedRead := none
  resets := resets
  inbox := []
  responses := []

/-- The state right after the first reset (R44, R400), which is also the state at power-up (R402). -/
def State.reset : State := State.afterReset 0

end Sys2Proof.Machine
end

