-- ==== Sys2Proof/Machine/Flags.lean ====
section
/-! DEFINITION. The engine has no flags or condition codes (spec R41). What software reads as a status is the STATUS word,
computed here from ERR and ERRCODE (R38, R209), and the one condition that gates commands is the lockout (R364). -/

namespace Sys2Proof.Machine

/-- STATUS: ERR in bit 0, ERRCODE in bits 15:8, bits 7:1 and 31:16 hardwired 0 (R38, R209). -/
def statusWord (s : State) : Word := BitVec.ofNat 32 (s.err.toNat + s.errCode.toNat * 2 ^ 8)

/-- The commands the locked engine still accepts: READ_STATUS and READ_ERRINFO (R364). -/
def acceptedWhileLocked (op : BitVec 8) : Bool := op == 0x0A || op == 0x0B

/-- Check 1 of R362: ERR = 1 and OP is neither READ_STATUS nor READ_ERRINFO. -/
def lockedOut (s : State) (op : BitVec 8) : Bool := s.err && !acceptedWhileLocked op

end Sys2Proof.Machine
end

