-- ==== Sys2Proof/Machine/Functions.lean ====
section
/-! DEFINITION. The pure functions of the spec: the word-operations library (R140 to R151), the schedule recurrence and the
schedule function (R250, R254), the round and rounds functions (R283), and the compression function (R312). The commands
use the word functions, `expandWord` and `roundWords`; `schedule`, `rounds` and `compress` are the reference functions the
whole-block commands are compared with. -/

namespace Sys2Proof.Machine

/-- ROTR(x, n), n in 0..31 (R140). -/
def rotr (x : Word) (n : Nat) : Word := (x >>> n) ||| (x <<< (32 - n))

/-- SHR(x, n), n in 0..31, zero-filling (R141). -/
def shr (x : Word) (n : Nat) : Word := x >>> n

/-- NOT(x), within 32 bits (R142). -/
def notWord (x : Word) : Word := ~~~x

/-- AND(x, y) (R143). -/
def andWord (x y : Word) : Word := x &&& y

/-- XOR(x, y) (R143). -/
def xorWord (x y : Word) : Word := x ^^^ y

/-- ADD(x, y) = (x + y) mod 2^32, no carry kept (R144). -/
def addWord (x y : Word) : Word := x + y

/-- CH(x, y, z) (R145). -/
def choice (x y z : Word) : Word := xorWord (andWord x y) (andWord (notWord x) z)

/-- MAJ(x, y, z) (R146). -/
def majority (x y z : Word) : Word := xorWord (xorWord (andWord x y) (andWord x z)) (andWord y z)

/-- BSIG0(x), the source's S0 (R147). -/
def bsig0 (x : Word) : Word := xorWord (xorWord (rotr x 2) (rotr x 13)) (rotr x 22)

/-- BSIG1(x), the source's S1 (R148). -/
def bsig1 (x : Word) : Word := xorWord (xorWord (rotr x 6) (rotr x 11)) (rotr x 25)

/-- SSIG0(x), the source's s0; the third term is a shift (R149). -/
def ssig0 (x : Word) : Word := xorWord (xorWord (rotr x 7) (rotr x 18)) (shr x 3)

/-- SSIG1(x), the source's s1; the third term is a shift (R150). -/
def ssig1 (x : Word) : Word := xorWord (xorWord (rotr x 17) (rotr x 19)) (shr x 10)

/-- The sum of the schedule recurrence over its four source words W[i-16], W[i-15], W[i-7], W[i-2] (R250). -/
def expandWord (w16 w15 w7 w2 : Word) : Word := addWord (addWord (addWord w16 (ssig0 w15)) w7) (ssig1 w2)

/-- T1 of a round (R281). -/
def temp1 (e f g h k w : Word) : Word := addWord (addWord (addWord (addWord h (bsig1 e)) (choice e f g)) k) w

/-- T2 of a round (R281). -/
def temp2 (a b c : Word) : Word := addWord (bsig0 a) (majority a b c)

/-- Round(v, k, w): every right-hand side is computed from the old v (R10, R281, R283). -/
def roundWords (v : Vector Word 8) (k w : Word) : Vector Word 8 :=
  let t1 := temp1 v[4] v[5] v[6] v[7] k w
  let t2 := temp2 v[0] v[1] v[2]
  #v[addWord t1 t2, v[0], v[1], v[2], addWord v[3] t1, v[4], v[5], v[6]]

/-- The wordwise sum mod 2^32 of two 8-word tuples (R310, R312). -/
def addWords (a b : Vector Word 8) : Vector Word 8 := ⟨⟨List.zipWith addWord a.toList b.toList⟩, by simp⟩

/-- Word i of an array; the callers keep i inside the array. -/
def wordAt {n : Nat} (xs : Vector Word n) (i : Nat) : Word := xs[i]?.getD 0

/-- Expand(W, i) for i in 16..63 (R250). -/
def expand (w : Vector Word 64) (i : Nat) : Word :=
  expandWord (wordAt w (i - 16)) (wordAt w (i - 15)) (wordAt w (i - 7)) (wordAt w (i - 2))

/-- The indexes 16..63 of the derived schedule words, in increasing order (R253, R254). -/
def expandIndexes : List Nat := List.range' Config.blockWords (Config.scheduleWords - Config.blockWords)

/-- The round numbers 0..63, in increasing order (R282). -/
def roundIndexes : List Nat := List.range Config.roundCount

/-- Schedule(b): s[j] = b[j] for j in 0..15, then s[i] = Expand(s, i) for i = 16, ..., 63 (R254). -/
def schedule (b : Block) : Vector Word 64 :=
  expandIndexes.foldl (fun s i => s.setIfInBounds i (expand s i)) ⟨⟨b.toList ++ List.replicate 48 0⟩, by simp⟩

/-- Rounds(v, s): the fold of Round over rounds 0..63 with K[i] and s[i] (R283). -/
def rounds (v : Vector Word 8) (k s : Vector Word 64) : Vector Word 8 :=
  roundIndexes.foldl (fun u i => roundWords u (wordAt k i) (wordAt s i)) v

/-- Compress(h, b) = h + Rounds(h, Schedule(b)) (R312). -/
def compress (k : Vector Word 64) (h : Vector Word 8) (b : Block) : Vector Word 8 :=
  addWords h (rounds h k (schedule b))

end Sys2Proof.Machine
end

