-- ==== Sys2Proof/Machine/Operands.lean ====
section
/-! DEFINITION. The operand forms (spec R102, R103). Operand words are plain 32-bit values in the instruction. An index is
the ARG byte zero-extended, never sign-extended, scaled or wrapped (R70, R102); an amount is ARG[4:0] zero-extended. The
arrays of State are read and written by index here; a read gives the word whatever its mark, and the first undefined word
that a list of reads meets is named beside it (R366). -/

namespace Sys2Proof.Machine

/-- The index an ARG byte selects (R102). -/
def indexOf (arg : BitVec 8) : Nat := arg.toNat

/-- The amount of a rotation or shift (R102). -/
def amountOf (n : BitVec 5) : Nat := n.toNat

/-- Check 5 of R362: the index lies in the opcode's range lo..hi (R105). -/
def indexInRange (lo hi : Nat) (arg : BitVec 8) : Bool := decide (lo ≤ indexOf arg) && decide (indexOf arg ≤ hi)

/-- A word that a command has written: its mark is set (R43). -/
def definedWord (x : Word) : MarkedWord := ⟨x, true⟩

/-- An array all of whose words a command has written (R43). -/
def definedWords {n : Nat} (xs : Vector Word n) : Vector MarkedWord n := ⟨⟨xs.toList.map definedWord⟩, by simp⟩

/-- The words of an array, marks left aside. -/
def valuesOf {n : Nat} (xs : Vector MarkedWord n) : Vector Word n := ⟨⟨xs.toList.map MarkedWord.value⟩, by simp⟩

/-- A read of one word, its mark left aside; the callers keep `i` inside the array. -/
def valueAt {n : Nat} (xs : Vector MarkedWord n) (i : Nat) : Word := (xs[i]?.map MarkedWord.value).getD 0

/-- The mark of one word (R43). -/
def isDefined {n : Nat} (xs : Vector MarkedWord n) (i : Nat) : Bool := (xs[i]?.map MarkedWord.defined).getD true

/-- The first undefined word among reads of one array in the order given (R43, R366: "The fault names the first undefined
word read, in the order the command's rule gives"). -/
def firstUndefined {n : Nat} (bank : Bank) (xs : Vector MarkedWord n) (reads : List Nat) : Option UndefinedRead :=
  (reads.find? fun i => !isDefined xs i).map fun i => ⟨bank, i⟩

/-- A write of one word: it becomes defined, the others are unchanged (R43, R201, R203, R205). -/
def writeWord {n : Nat} (xs : Vector MarkedWord n) (i : Nat) (x : Word) : Vector MarkedWord n :=
  xs.setIfInBounds i (definedWord x)

/-- The first 16 schedule words replaced by a block's words, all defined; words 16..63 kept (R251). -/
def writeBlock (xs : Vector MarkedWord 64) (block : Block) : Vector MarkedWord 64 :=
  ⟨⟨block.toList.map definedWord ++ xs.toList.drop 16⟩, by simp⟩

end Sys2Proof.Machine
end

