-- ==== Sys2Proof/Machine/Ops.lean ====
section
/-! DEFINITION. The named operations over State: responding, TAKING AN ERROR (`raiseError`, spec R361, R363, R368: the
engine's one kind of exception; there is no return from it but reset, R369), the host's reset (R400), the checks a command
makes itself (R362 steps 1 and 5), noting an undefined read (R366), and finishing a command (R362 steps 6 and 7). -/

namespace Sys2Proof.Machine

/-- The outcome of one step. -/
abbrev StepOutcome := Host.Outcome State Fault Refusal

/-- Give one response; nothing else changes (R100, R365). -/
def respond (r : Response) (s : State) : State := { s with responses := r :: s.responses }

/-- Error recording (R363): the first error other than LOCKED sets ERR and saves its code and its command word. -/
def recordError (c : ErrorCode) (cmd : Word) (s : State) : State :=
  if c ≠ .locked ∧ s.err = false then { s with err := true, errCode := c.code, errInfo := cmd } else s

/-- Raise CommandError(c): the recording, then NAK(c); the command has no other effect and control goes nowhere
(R361, R363, R368). -/
def raiseError (c : ErrorCode) (cmd : Word) (s : State) : StepOutcome :=
  .next (respond (.nak c.code) (recordError c cmd s))

/-- The host's reset (R400): H, V and W become undefined, the error registers return to 0, the ROMs keep their values, and
no response is given. The host's later actions and the responses already given are not engine state. The undefined words
are new ones (log entry 1). -/
def hostReset (s : State) : State :=
  { State.afterReset (s.resets + 1) with k := s.k, iv := s.iv, inbox := s.inbox, responses := s.responses }

/-- Note the reads of some words of an array, before they are made: the first undefined word read since the last reset is
kept (R43, R366). Nothing else changes. -/
def noteReads {n : Nat} (bank : Bank) (xs : Vector MarkedWord n) (reads : List Nat) (s : State) : State :=
  { s with undefinedRead := s.undefinedRead.or (firstUndefined bank xs reads) }

/-- Steps 6 and 7 of R362: the new state, and ACK with the results. -/
def finish (effect : State × List Word) : StepOutcome := .next (respond (.ack effect.2) effect.1)

/-- A command that the locked engine does not accept (R364): NAK(LOCKED) while ERR = 1, else its effect. -/
def unlessLocked (cmd : Word) (s : State) (effect : State × List Word) : StepOutcome :=
  if s.err then raiseError .locked cmd s else finish effect

/-- A command of format CMD-I: LOCKED (step 1), then INDEX_RANGE (step 5), then its effect (R362). `cmd` is the command word
made again from the instruction (DEDUCED, log entry 6). -/
def indexed (cmd : Word) (lo hi : Nat) (arg : BitVec 8) (s : State) (effect : State × List Word) : StepOutcome :=
  if s.err then raiseError .locked cmd s
  else if indexInRange lo hi arg then finish effect
  else raiseError .indexRange cmd s

/-- READ_H, READ_V and READ_W: the word of the array, and no change but the note of the read (R73, R202, R204, R206). -/
def readEffect {n : Nat} (bank : Bank) (xs : Vector MarkedWord n) (i : Nat) (s : State) : State × List Word :=
  (noteReads bank xs [i] s, [valueAt xs i])

/-- A multi-step command: `f` at each index in order, each seeing the state the one before left (R253, R282). -/
def forIndexes (f : Nat → State → State) : List Nat → State → State
  | [], s => s
  | i :: is, s => forIndexes f is (f i s)

end Sys2Proof.Machine
end

