-- ==== Sys2Proof/Machine/Compression.lean ====
section
/-! DEFINITION. The compression rounds: LOAD_V, ROUND, ROUNDS_ALL (spec R280 to R282). -/

namespace Sys2Proof.Machine

/-- The state update of LOAD_V (R280): V[k] <- H[k], k in increasing order. -/
def loadVUpdate (s : State) : State :=
  { noteReads .H s.h (List.range Config.hashWords) s with v := definedWords (valuesOf s.h) }

/-- The state update of ROUND i (R281): V[0..7] are read first, then W[i] and K[i], then all eight words are written. -/
def roundUpdate (i : Nat) (s : State) : State :=
  { noteReads .W s.w [i] (noteReads .V s.v (List.range Config.hashWords) s) with
    v := definedWords (roundWords (valuesOf s.v) (wordAt s.k i) (valueAt s.w i)) }

/-- The state update of ROUNDS_ALL (R282): ROUND 0, 1, ..., 63 in order. -/
def roundsAllUpdate (s : State) : State := forIndexes roundUpdate roundIndexes s

/-- LOAD_V (R280). -/
def execLoadV (s : State) : StepOutcome := unlessLocked (cmdWord 0x20 0) s (loadVUpdate s, [])

/-- ROUND (R281). -/
def execRound (index : BitVec 8) (s : State) : StepOutcome :=
  indexed (cmdWord 0x21 index) 0 63 index s (roundUpdate (indexOf index) s, [])

/-- ROUNDS_ALL (R282). -/
def execRoundsAll (s : State) : StepOutcome := unlessLocked (cmdWord 0x22 0) s (roundsAllUpdate s, [])

end Sys2Proof.Machine
end

