-- ==== Sys2Proof/Machine/Expander.lean ====
section
/-! DEFINITION. The message-schedule expander: LOAD_BLOCK, EXPAND_STEP, EXPAND_ALL (spec R250 to R253). -/

namespace Sys2Proof.Machine

/-- The state update of LOAD_BLOCK (R251): W[j] <- op[j] for j in 0..15; W[16..63] keep what they hold. -/
def loadBlockUpdate (block : Block) (s : State) : State := { s with w := writeBlock s.w block }

/-- The state update of EXPAND_STEP i (R252): W[i] <- Expand(W, i). The words are read in the order W[i-16], W[i-15],
W[i-7], W[i-2], which fixes the word an UndefinedRead names (R250). -/
def expandUpdate (i : Nat) (s : State) : State :=
  { noteReads .W s.w [i - 16, i - 15, i - 7, i - 2] s with
    w := writeWord s.w i
      (expandWord (valueAt s.w (i - 16)) (valueAt s.w (i - 15)) (valueAt s.w (i - 7)) (valueAt s.w (i - 2))) }

/-- The state update of EXPAND_ALL (R253): EXPAND_STEP 16, 17, ..., 63 in order. -/
def expandAllUpdate (s : State) : State := forIndexes expandUpdate expandIndexes s

/-- LOAD_BLOCK (R251). -/
def execLoadBlock (block : Block) (s : State) : StepOutcome :=
  unlessLocked (cmdWord 0x10 0) s (loadBlockUpdate block s, [])

/-- EXPAND_STEP (R252). -/
def execExpandStep (index : BitVec 8) (s : State) : StepOutcome :=
  indexed (cmdWord 0x11 index) 16 63 index s (expandUpdate (indexOf index) s, [])

/-- EXPAND_ALL (R253). -/
def execExpandAll (s : State) : StepOutcome :=
  unlessLocked (cmdWord 0x12 0) s (expandAllUpdate s, [])

end Sys2Proof.Machine
end

