-- ==== Sys2Proof/Machine/Accumulator.lean ====
section
/-! DEFINITION. The state accumulator ACCUM and the whole-block command COMPRESS_BLOCK (spec R310, R311). -/

namespace Sys2Proof.Machine

/-- The state update of ACCUM (R310): all of H is read, then all of V, then H[k] <- H[k] + V[k]. -/
def accumUpdate (s : State) : State :=
  { noteReads .V s.v (List.range Config.hashWords) (noteReads .H s.h (List.range Config.hashWords) s) with
    h := definedWords (addWords (valuesOf s.h) (valuesOf s.v)) }

/-- The state update of COMPRESS_BLOCK (R311): as LOAD_BLOCK, EXPAND_ALL, LOAD_V, ROUNDS_ALL, ACCUM, in one transaction. -/
def compressUpdate (block : Block) (s : State) : State :=
  accumUpdate (roundsAllUpdate (loadVUpdate (expandAllUpdate (loadBlockUpdate block s))))

/-- ACCUM (R310). -/
def execAccum (s : State) : StepOutcome := unlessLocked (cmdWord 0x30 0) s (accumUpdate s, [])

/-- COMPRESS_BLOCK (R311). -/
def execCompressBlock (block : Block) (s : State) : StepOutcome :=
  unlessLocked (cmdWord 0x31 0) s (compressUpdate block s, [])

end Sys2Proof.Machine
end

