-- ==== Sys2Proof/Machine/StateAccess.lean ====
section
/-! DEFINITION. INIT, the reads and writes of H, V, W, K and IV, and the status reads (spec R200 to R210). -/

namespace Sys2Proof.Machine

/-- INIT (R200): H <- IV; V, W and the error registers are unchanged. -/
def execInit (s : State) : StepOutcome :=
  unlessLocked (cmdWord 0x01 0) s ({ s with h := definedWords s.iv }, [])

/-- WRITE_H (R201). -/
def execWriteH (index : BitVec 8) (x : Word) (s : State) : StepOutcome :=
  indexed (cmdWord 0x02 index) 0 7 index s ({ s with h := writeWord s.h (indexOf index) x }, [])

/-- READ_H (R202). -/
def execReadH (index : BitVec 8) (s : State) : StepOutcome :=
  indexed (cmdWord 0x03 index) 0 7 index s (readEffect .H s.h (indexOf index) s)

/-- WRITE_V (R203). -/
def execWriteV (index : BitVec 8) (x : Word) (s : State) : StepOutcome :=
  indexed (cmdWord 0x04 index) 0 7 index s ({ s with v := writeWord s.v (indexOf index) x }, [])

/-- READ_V (R204). -/
def execReadV (index : BitVec 8) (s : State) : StepOutcome :=
  indexed (cmdWord 0x05 index) 0 7 index s (readEffect .V s.v (indexOf index) s)

/-- WRITE_W (R205). -/
def execWriteW (index : BitVec 8) (x : Word) (s : State) : StepOutcome :=
  indexed (cmdWord 0x06 index) 0 63 index s ({ s with w := writeWord s.w (indexOf index) x }, [])

/-- READ_W (R206). -/
def execReadW (index : BitVec 8) (s : State) : StepOutcome :=
  indexed (cmdWord 0x07 index) 0 63 index s (readEffect .W s.w (indexOf index) s)

/-- READ_K (R207): K is always defined. -/
def execReadK (index : BitVec 8) (s : State) : StepOutcome :=
  indexed (cmdWord 0x08 index) 0 63 index s (s, [wordAt s.k (indexOf index)])

/-- READ_IV (R208): IV is always defined. -/
def execReadIv (index : BitVec 8) (s : State) : StepOutcome :=
  indexed (cmdWord 0x09 index) 0 7 index s (s, [wordAt s.iv (indexOf index)])

/-- READ_STATUS (R209): never LOCKED. -/
def execReadStatus (s : State) : StepOutcome := finish (s, [statusWord s])

/-- READ_ERRINFO (R210): never LOCKED. -/
def execReadErrinfo (s : State) : StepOutcome := finish (s, [s.errInfo])

end Sys2Proof.Machine
end

