-- ==== Sys2Proof/Machine/WordOperations.lean ====
section
/-! DEFINITION. The twelve word-operation commands (spec R160 to R171): each evaluates a function of the library on its
operand words, responds with one word and writes no state. They may be issued at any time except while locked (D28). -/

namespace Sys2Proof.Machine

/-- A word-operation command with its command word and its result. -/
def wordCommand (cmd : Word) (result : Word) (s : State) : StepOutcome :=
  unlessLocked cmd s (s, [result])

/-- ROTR (R160). -/
def execRotr (amount : BitVec 5) (x : Word) (s : State) : StepOutcome :=
  wordCommand (cmdWord 0x40 (amount.setWidth 8)) (rotr x (amountOf amount)) s

/-- SHR (R161). -/
def execShr (amount : BitVec 5) (x : Word) (s : State) : StepOutcome :=
  wordCommand (cmdWord 0x41 (amount.setWidth 8)) (shr x (amountOf amount)) s

/-- NOT (R162). -/
def execNot (x : Word) (s : State) : StepOutcome := wordCommand (cmdWord 0x42 0) (notWord x) s

/-- AND (R163). -/
def execAnd (x y : Word) (s : State) : StepOutcome := wordCommand (cmdWord 0x43 0) (andWord x y) s

/-- XOR (R164). -/
def execXor (x y : Word) (s : State) : StepOutcome := wordCommand (cmdWord 0x44 0) (xorWord x y) s

/-- ADD (R165). -/
def execAdd (x y : Word) (s : State) : StepOutcome := wordCommand (cmdWord 0x45 0) (addWord x y) s

/-- CH (R166). -/
def execCh (x y z : Word) (s : State) : StepOutcome := wordCommand (cmdWord 0x46 0) (choice x y z) s

/-- MAJ (R167). -/
def execMaj (x y z : Word) (s : State) : StepOutcome := wordCommand (cmdWord 0x47 0) (majority x y z) s

/-- BSIG0 (R168). -/
def execBsig0 (x : Word) (s : State) : StepOutcome := wordCommand (cmdWord 0x48 0) (bsig0 x) s

/-- BSIG1 (R169). -/
def execBsig1 (x : Word) (s : State) : StepOutcome := wordCommand (cmdWord 0x49 0) (bsig1 x) s

/-- SSIG0 (R170). -/
def execSsig0 (x : Word) (s : State) : StepOutcome := wordCommand (cmdWord 0x4A 0) (ssig0 x) s

/-- SSIG1 (R171). -/
def execSsig1 (x : Word) (s : State) : StepOutcome := wordCommand (cmdWord 0x4B 0) (ssig1 x) s

end Sys2Proof.Machine
end

