-- ==== Sys2Proof/Machine/Dispatch.lean ====
section
/-! DEFINITION. What each instruction does: one arm per constructor, one direct call of its meaning (spec R362 steps 1, 5,
6 and 7 for an instruction the decoder has read). -/

namespace Sys2Proof.Machine

def exec (i : Instr) (s : State) : Host.Outcome State Fault Refusal :=
  match i with
  | .init => Sys2Proof.Machine.execInit s
  | .writeH index x => Sys2Proof.Machine.execWriteH index x s
  | .readH index => Sys2Proof.Machine.execReadH index s
  | .writeV index x => Sys2Proof.Machine.execWriteV index x s
  | .readV index => Sys2Proof.Machine.execReadV index s
  | .writeW index x => Sys2Proof.Machine.execWriteW index x s
  | .readW index => Sys2Proof.Machine.execReadW index s
  | .readK index => Sys2Proof.Machine.execReadK index s
  | .readIv index => Sys2Proof.Machine.execReadIv index s
  | .readStatus => Sys2Proof.Machine.execReadStatus s
  | .readErrinfo => Sys2Proof.Machine.execReadErrinfo s
  | .loadBlock block => Sys2Proof.Machine.execLoadBlock block s
  | .expandStep index => Sys2Proof.Machine.execExpandStep index s
  | .expandAll => Sys2Proof.Machine.execExpandAll s
  | .loadV => Sys2Proof.Machine.execLoadV s
  | .round index => Sys2Proof.Machine.execRound index s
  | .roundsAll => Sys2Proof.Machine.execRoundsAll s
  | .accum => Sys2Proof.Machine.execAccum s
  | .compressBlock block => Sys2Proof.Machine.execCompressBlock block s
  | .rotr amount x => Sys2Proof.Machine.execRotr amount x s
  | .shr amount x => Sys2Proof.Machine.execShr amount x s
  | .not x => Sys2Proof.Machine.execNot x s
  | .and x y => Sys2Proof.Machine.execAnd x y s
  | .xor x y => Sys2Proof.Machine.execXor x y s
  | .add x y => Sys2Proof.Machine.execAdd x y s
  | .ch x y z => Sys2Proof.Machine.execCh x y z s
  | .maj x y z => Sys2Proof.Machine.execMaj x y z s
  | .bsig0 x => Sys2Proof.Machine.execBsig0 x s
  | .bsig1 x => Sys2Proof.Machine.execBsig1 x s
  | .ssig0 x => Sys2Proof.Machine.execSsig0 x s
  | .ssig1 x => Sys2Proof.Machine.execSsig1 x s

end Sys2Proof.Machine
end

