-- ==== Sys2Proof/Machine/Transaction.lean ====
section
/-! DEFINITION. One transaction (spec R100, R362): the checks in their fixed order, and one host action taken from the
inbox (R376, R400). -/

namespace Sys2Proof.Machine

/-- Checks 1 to 4 of R362, in that order; check 5 is the command's own. -/
def acceptRequest (r : Request) (s : State) : Except ErrorCode Instr :=
  if lockedOut s (opField r.cmd) then .error .locked else decode r

/-- `step(S, req)` of R362: the first check that fails is raised, else the command is performed. -/
def transact (r : Request) (s : State) : StepOutcome :=
  match acceptRequest r s with
  | .error c => raiseError c r.cmd s
  | .ok i => exec i s

/-- One host action. With none waiting the engine is idle and holds its state (R376); a reset produces no response (R400);
a request is one whole transaction (R72). -/
def takeAction (s : State) : StepOutcome :=
  match s.inbox with
  | [] => .next s
  | .reset :: rest => .next (hostReset { s with inbox := rest })
  | .request r :: rest => transact r { s with inbox := rest }

end Sys2Proof.Machine
end

