-- ==== Sys2Proof/Machine/Step.lean ====
section
/-! DEFINITION. One step of the machine: one host action taken and answered (spec R72, R80). The engine fetches nothing
(R83): the next request is the first of the inbox. -/

namespace Sys2Proof.Machine

def step (s : State) : Host.Outcome State Fault Refusal := takeAction s

/-- `s` with the request of the table's word as the host's next action, so that the next step runs exactly it
(log entry 2). -/
def State.withFetchWord (s : State) (nbits w : Nat) : State :=
  { s with inbox := .request (tableRequest nbits w) :: s.inbox }

end Sys2Proof.Machine
end

