-- ==== Sys2Proof/Machine/HostReference.lean ====
section
/-! DEFINITION. The host's side (spec R330 to R338, R111): what the host does before and after it drives the engine. None
of it is hardware, and no step calls it. "A model of the engine may implement these rules as its host-side harness." -/

namespace Sys2Proof.HostSide

open Sys2Proof.Machine

/-- The big-endian bits of a byte, bit 7 first (R330). -/
def byteBits (b : Byte) : List Bool :=
  [b.getLsbD 7, b.getLsbD 6, b.getLsbD 5, b.getLsbD 4, b.getLsbD 3, b.getLsbD 2, b.getLsbD 1, b.getLsbD 0]

/-- The bit sequence of a message (R330). -/
def messageBits (message : List Byte) : List Bool := message.flatMap byteBits

/-- `n` as `width` bits, most-significant bit first (R331). -/
def natBits (width n : Nat) : List Bool := (List.range width).map fun j => n.testBit (width - 1 - j)

/-- k = (447 - L) mod 512, the number of 0 bits of the padding (R331). -/
def zeroBits (len : Nat) : Nat := ((447 - (len : Int)) % 512).toNat

/-- The padded bit sequence: the bits, one 1 bit, k 0 bits, and the length as a big-endian 64-bit number (R331). The spec
gives it for a length below 2^64 only and has the host refuse any other (R332); beyond, the length field takes the length
mod 2^64 (DESIGN CHOICE, log entry 8). -/
def padBits (bits : List Bool) : List Bool :=
  bits ++ [true] ++ List.replicate (zeroBits bits.length) false ++ natBits Config.lengthFieldBits bits.length

/-- A bit sequence read as a big-endian unsigned integer (R337). -/
def bitsToNat (bits : List Bool) : Nat := bits.foldl (fun n b => 2 * n + b.toNat) 0

/-- A sequence cut into consecutive pieces of `size` elements; `count` pieces (R333). -/
def pieces {α : Type} (size : Nat) : Nat → List α → List (List α)
  | 0, _ => []
  | count + 1, xs => xs.take size :: pieces size count (xs.drop size)

/-- The bytes of a bit sequence whose length is a multiple of 8, the form the message path uses (R331, R337). Bits past the
last whole byte are dropped, which no padded sequence has (log entry 8). -/
def bitsToBytes (bits : List Bool) : List Byte :=
  (pieces 8 (bits.length / 8) bits).map fun p => BitVec.ofNat 8 (bitsToNat p)

/-- A number as `width` big-endian bytes, padded on the left with zero bytes (R337, fixed width). The spec does not say what
a number too great for the width gives: its low-order `width` bytes are kept (DESIGN CHOICE, log entry 7). -/
def fixedBytes (width n : Nat) : List Byte := (List.range width).map fun j => BitVec.ofNat 8 (n / 256 ^ (width - 1 - j))

/-- The least number of bytes that hold `n`; 0 takes none (R337, minimal width; log entry 5). -/
def minimalWidth (n : Nat) : Nat := (Nat.log2 n + 8) / 8 * min n 1

/-- The source's bitsequenceToBytes (R337): the caller asks for a fixed width (log entry 7 where the number does not fit) or
for the minimal one (log entry 5 for the number 0). -/
def bitSequenceToBytes (width : Option Nat) (bits : List Bool) : List Byte :=
  match width with
  | some n => fixedBytes n (bitsToNat bits)
  | none => fixedBytes (minimalWidth (bitsToNat bits)) (bitsToNat bits)

/-- The padded bytes of a message the host accepts (R331); for one it refuses (R332), see log entry 8. -/
def padMessage (message : List Byte) : List Byte := bitsToBytes (padBits (messageBits message))

/-- Block j's 64 bytes are bytes 64j to 64j+63 of the padded byte string (R333). -/
def blockBytesOf (padded : List Byte) : List (List Byte) :=
  pieces Config.blockBytes (padded.length / Config.blockBytes) padded

/-- A word formed big-endian from four bytes (R74, R334). -/
def formWord (b0 b1 b2 b3 : Byte) : Word :=
  BitVec.ofNat 32 (b0.toNat * 2 ^ 24 + b1.toNat * 2 ^ 16 + b2.toNat * 2 ^ 8 + b3.toNat)

/-- The words of a byte string, in order (R334). -/
def formWords : List Byte → List Word
  | b0 :: b1 :: b2 :: b3 :: rest => formWord b0 b1 b2 b3 :: formWords rest
  | _ => []

/-- The blocks of a message, each as its words (R333, R334). -/
def messageBlocks (message : List Byte) : List (List Word) := (blockBytesOf (padMessage message)).map formWords

/-- R332: the host must not submit a message of 2^64 bits or more, and refuses it rather than pad it: `digestRequests` and
`digest` give nothing for it. -/
def accepts (message : List Byte) : Bool := decide (8 * message.length < 2 ^ Config.lengthFieldBits)

/-- INIT (R200). -/
def initRequest : Request := ⟨0x01000000, []⟩

/-- COMPRESS_BLOCK with a block's words (R311). -/
def compressRequest (block : List Word) : Request := ⟨0x31000000, block⟩

/-- READ_STATE: READ_H 0, ..., READ_H 7 (R111). -/
def readState : List Request := (List.range Config.hashWords).map fun k => ⟨cmdWord 0x03 (BitVec.ofNat 8 k), []⟩

/-- RESTORE_STATE h0, ..., h7: WRITE_H 0, h0, ..., WRITE_H 7, h7 (R111). -/
def restoreState (hs : List Word) : List Request :=
  hs.zipIdx.map fun (x, k) => ⟨cmdWord 0x02 (BitVec.ofNat 8 k), [x]⟩

/-- EXPAND_STEPWISE: EXPAND_STEP 16, ..., EXPAND_STEP 63 (R111). -/
def expandStepwise : List Request := expandIndexes.map fun i => ⟨cmdWord 0x11 (BitVec.ofNat 8 i), []⟩

/-- ROUNDS_STEPWISE: ROUND 0, ..., ROUND 63 (R111). -/
def roundsStepwise : List Request := roundIndexes.map fun i => ⟨cmdWord 0x21 (BitVec.ofNat 8 i), []⟩

/-- BLOCK_STEPWISE: LOAD_BLOCK, EXPAND_ALL, LOAD_V, ROUNDS_ALL, ACCUM (R111). -/
def blockStepwise (block : List Word) : List Request :=
  [⟨0x10000000, block⟩, ⟨0x12000000, []⟩, ⟨0x20000000, []⟩, ⟨0x22000000, []⟩, ⟨0x30000000, []⟩]

/-- How the host hands a block to the engine (R335). -/
inductive BlockForm where
  /-- COMPRESS_BLOCK. -/
  | whole
  /-- The five stepwise commands of R111, BLOCK_STEPWISE. -/
  | stepwise
  deriving DecidableEq, Repr

/-- The requests of one block (R335). -/
def blockRequests (form : BlockForm) (block : List Word) : List Request :=
  match form with
  | .whole => [compressRequest block]
  | .stepwise => blockStepwise block

/-- The requests of the blocks j, j + 1, ... in order, block j in the form the host chose for it (R335). -/
def blocksRequests (form : Nat → BlockForm) : Nat → List (List Word) → List Request
  | _, [] => []
  | j, block :: blocks => blockRequests (form j) block ++ blocksRequests form (j + 1) blocks

/-- The requests of the digest procedure (R335); `none` for a message the host refuses (R332). -/
def digestRequests (form : Nat → BlockForm) (message : List Byte) : Option (List Request) :=
  if accepts message then some (initRequest :: blocksRequests form 0 (messageBlocks message) ++ readState) else none

/-- The four big-endian bytes of a word: byte m is bits 31-8m down to 24-8m (R75, R336). -/
def wordBytes (x : Word) : List Byte :=
  [x.extractLsb' 24 8, x.extractLsb' 16 8, x.extractLsb' 8 8, x.extractLsb' 0 8]

/-- The digest: the 8 words, each as four bytes (R336). -/
def assembleDigest (ds : List Word) : List Byte := ds.flatMap wordBytes

/-- A block's words as the engine takes them, if there are 16. -/
def blockOf (ws : List Word) : Option Block := if size : ws.length = 16 then some ⟨⟨ws⟩, size⟩ else none

/-- H_n of R312: H_0 = h and H_j = Compress(H_(j-1), b_j). -/
def chain (k : Vector Word 64) (h : Vector Word 8) (blocks : List Block) : Vector Word 8 := blocks.foldl (compress k) h

/-- The digest of a message by the pure functions of the spec (R312, R335, R336); `none` for a message the host refuses
(R332). -/
def digest (message : List Byte) : Option (List Byte) :=
  if accepts message then
    some (assembleDigest (chain romK romIv ((messageBlocks message).filterMap blockOf)).toList)
  else none

end Sys2Proof.HostSide
end

