-- ==== Sys2Proof/Machine/DigestProcedure.lean ====
section
/-! DEFINITION. The host's digest procedure run against the engine (spec R335): one request at a time, each answer read
before the next request is issued. It is the host's, and no step calls it. -/

namespace Sys2Proof.HostSide

open Sys2Proof.Machine

/-- The result words of the latest response, if it is an ACK (R104). -/
def ackResults (s : State) : Option (List Word) :=
  match s.responses with
  | .ack results :: _ => some results
  | _ => none

/-- Issue the requests one after another and gather their result words after `results`. "Every command must respond ACK. If
one responds NAK, the digest is not computed and the host must reset the engine" (R335): then no later request is issued and
there are no results. -/
def issue : List Request → List Word → State → Host.Outcome (Option (List Word) × State) Fault Refusal
  | [], results, s => .next (some results, s)
  | r :: rs, results, s =>
    match transact r s with
    | .next t =>
      match ackResults t with
      | some words => issue rs (results ++ words) t
      | none => .next (none, hostReset t)
    | .fault f => .fault f
    | .refused why => .refused why

/-- The digest the host assembles from what READ_H answered, d0 to d7, and the state it leaves the engine in (R335, R336).
INIT and the block commands answer no result word, so the words gathered are those of READ_H. `none` for a message the host
refuses (R332). -/
def computeDigest (form : Nat → BlockForm) (message : List Byte) (s : State) :
    Option (Host.Outcome (Option (List Byte) × State) Fault Refusal) :=
  (digestRequests form message).map fun requests =>
    match issue requests [] s with
    | .next (results, t) => .next (results.map assembleDigest, t)
    | .fault f => .fault f
    | .refused why => .refused why

end Sys2Proof.HostSide
end

