-- ==== Sys2Proof/Machine/ModelFault.lean ====
section
/-! DEFINITION. The fault of the spec's model (R43, R366; D9, U2, U3), beside the machine: the same step, stopped where a
command reads an undefined word. The machine itself goes on there, as R366 says the hardware does (log entry 9); a claim that
is to rest on no value the spec leaves open is stated about `modelStep`. -/

namespace Sys2Proof.Machine

/-- What the spec's model answers: a next state, or the fault UndefinedRead (R366). -/
abbrev ModelOutcome := Host.Outcome State UndefinedRead Refusal

/-- Raise UndefinedRead if a word read since the last reset was undefined. "No later request is stepped" (R366): a state
that carries the note faults again, whatever comes. -/
def stopAtUndefinedRead (outcome : StepOutcome) : ModelOutcome :=
  match outcome with
  | .next t =>
    match t.undefinedRead with
    | some read => .fault read
    | none => .next t
  | .fault f => nomatch f
  | .refused why => .refused why

/-- One step of the spec's model (R362 step 6, R366). -/
def modelStep (s : State) : ModelOutcome := stopAtUndefinedRead (step s)

/-- The spec's model as a machine, so that `modelCore.run` is a run of it. -/
def modelCore : Host.Core where
  State := State
  Fault := UndefinedRead
  Refusal := Refusal
  step := modelStep
  reset := State.reset

end Sys2Proof.Machine
end

