-- ==== Sys2Proof/Safety.lean ====
section
/-! DEFINITION. The terms the claims are stated in: the invariants of the error registers (spec R38, R39) and of the ROMs
(R37), what is visible of a state whose words may be undefined (R43), the check order of R362 written out from the tables of
30_encoding.md by opcode number (independently of the decoder's map), and runs of several commands. -/

namespace Sys2Proof.Safety

open Sys2Proof.Machine

/-- R35, R36: the ROMs hold their tables. -/
abbrev RomsIntact (s : State) : Prop := s.k = romK ∧ s.iv = romIv

/-- The word at `i` of an array is defined (R43). -/
abbrev definedAt {n : Nat} (xs : Vector MarkedWord n) (i : Nat) : Prop := xs[i]?.map MarkedWord.defined = some true

/-- The word at `i` of an array is undefined (R43). -/
abbrev undefinedAt {n : Nat} (xs : Vector MarkedWord n) (i : Nat) : Prop := xs[i]?.map MarkedWord.defined = some false

/-- Two arrays with the same marks and the same values where the marks are set. -/
abbrev SameWhereDefined {n : Nat} (xs ys : Vector MarkedWord n) : Prop :=
  ∀ i : Fin n, xs[i].defined = ys[i].defined ∧ (xs[i].defined = true → xs[i].value = ys[i].value)

/-- Two states that differ at most in what their undefined words hold (R43). -/
abbrev SameVisible (s t : State) : Prop :=
  SameWhereDefined s.h t.h ∧ SameWhereDefined s.v t.v ∧ SameWhereDefined s.w t.w ∧ s.k = t.k ∧ s.iv = t.iv ∧
    s.err = t.err ∧ s.errCode = t.errCode ∧ s.errInfo = t.errInfo ∧ s.undefinedRead = t.undefinedRead ∧
    s.resets = t.resets ∧ s.inbox = t.inbox ∧ s.responses = t.responses

/-- No mark that is set in `s` is clear in `t` (R43). -/
abbrev MarksKept (s t : State) : Prop :=
  (∀ i, definedAt s.h i → definedAt t.h i) ∧ (∀ i, definedAt s.v i → definedAt t.v i) ∧
    (∀ i, definedAt s.w i → definedAt t.w i)

/-- The unassigned opcodes as R106 lists them. -/
abbrev unassigned (op : Nat) : Prop :=
  op = 0x00 ∨ (0x0C ≤ op ∧ op ≤ 0x0F) ∨ (0x13 ≤ op ∧ op ≤ 0x1F) ∨ (0x23 ≤ op ∧ op ≤ 0x2F) ∨
    (0x32 ≤ op ∧ op ≤ 0x3F) ∨ (0x4C ≤ op ∧ op ≤ 0xFF)

/-- The opcodes of format CMD-I (R105). -/
def indexOps : List Nat := [0x02, 0x03, 0x04, 0x05, 0x06, 0x07, 0x08, 0x09, 0x11, 0x21]

/-- The opcodes of format CMD-A (R105). -/
def amountOps : List Nat := [0x40, 0x41]

/-- R107 by opcode number: cmd / 2^8 mod 2^16 is RSV, cmd mod 2^8 is ARG, ARG / 2^5 is ARG[7:5]. -/
abbrev hasReservedBits (op cmd : Nat) : Prop :=
  cmd / 2 ^ 8 % 2 ^ 16 ≠ 0 ∨ (op ∉ indexOps ∧ op ∉ amountOps ∧ cmd % 2 ^ 8 ≠ 0) ∨
    (op ∈ amountOps ∧ cmd % 2 ^ 8 / 2 ^ 5 ≠ 0)

/-- N of R105 by opcode number. -/
def requiredOperands (op : Nat) : Nat :=
  if op ∈ [0x10, 0x31] then 16
  else if op ∈ [0x46, 0x47] then 3
  else if op ∈ [0x43, 0x44, 0x45] then 2
  else if op ∈ [0x02, 0x04, 0x06, 0x40, 0x41, 0x42, 0x48, 0x49, 0x4A, 0x4B] then 1
  else 0

/-- M of R105 by opcode number. -/
def resultCount (op : Nat) : Nat :=
  if op ∈ [0x03, 0x05, 0x07, 0x08, 0x09, 0x0A, 0x0B] ∨ 0x40 ≤ op then 1 else 0

/-- R105 and R70 by opcode number: the index is outside the opcode's range. -/
abbrev indexOutside (op arg : Nat) : Prop :=
  (op ∈ [0x02, 0x03, 0x04, 0x05, 0x09] ∧ 7 < arg) ∨ (op ∈ [0x06, 0x07, 0x08, 0x21] ∧ 63 < arg) ∨
    (op = 0x11 ∧ (arg < 16 ∨ 63 < arg))

/-- Steps 2 to 5 of R362: `code` can be the first check a request with this command word fails (the operand count, 0x03,
does not show in the word). -/
def failsFirst (code : BitVec 8) (cmd : Word) : Bool :=
  if unassigned (cmd.toNat / 2 ^ 24) then code == 0x01
  else if hasReservedBits (cmd.toNat / 2 ^ 24) cmd.toNat then code == 0x02
  else code == 0x03 || (code == 0x04 && decide (indexOutside (cmd.toNat / 2 ^ 24) (cmd.toNat % 2 ^ 8)))

/-- R38, R39, R363: ERRCODE is 0x00 and ERRINFO 0 while ERR = 0; while ERR = 1, ERRINFO is a command word and ERRCODE a
check it fails first, never LOCKED's 0x05. -/
abbrev ErrorRegistersOk (s : State) : Prop :=
  (s.err = false ∧ s.errCode = 0x00 ∧ s.errInfo = 0x00000000) ∨
    (s.err = true ∧ failsFirst s.errCode s.errInfo = true)

/-- Steps 1 to 5 of R362: the first check a request fails, if any. OP is cmd / 2^24. -/
def firstFailingCheck (s : State) (r : Request) : Option ErrorCode :=
  let op := r.cmd.toNat / 2 ^ 24
  if s.err = true ∧ op ≠ 0x0A ∧ op ≠ 0x0B then some .locked
  else if unassigned op then some .illegalOpcode
  else if hasReservedBits op r.cmd.toNat then some .reservedBits
  else if r.ops.length ≠ requiredOperands op then some .operandCount
  else if indexOutside op (r.cmd.toNat % 2 ^ 8) then some .indexRange
  else none

/-- The commands that only observe: the reads (R73) and the word operations (40 part 2). -/
def observes : Instr → Bool
  | .readH _ => true
  | .readV _ => true
  | .readW _ => true
  | .readK _ => true
  | .readIv _ => true
  | .readStatus => true
  | .readErrinfo => true
  | .rotr _ _ => true
  | .shr _ _ => true
  | .not _ => true
  | .and _ _ => true
  | .xor _ _ => true
  | .add _ _ => true
  | .ch _ _ _ => true
  | .maj _ _ _ => true
  | .bsig0 _ => true
  | .bsig1 _ => true
  | .ssig0 _ => true
  | .ssig1 _ => true
  | .init => false
  | .writeH _ _ => false
  | .writeV _ _ => false
  | .writeW _ _ => false
  | .loadBlock _ => false
  | .expandStep _ => false
  | .expandAll => false
  | .loadV => false
  | .round _ => false
  | .roundsAll => false
  | .accum => false
  | .compressBlock _ => false

/-- Several commands one after another. -/
def runInstrs : List Instr → State → StepOutcome
  | [], s => .next s
  | i :: is, s =>
    match exec i s with
    | .next t => runInstrs is t
    | .fault f => .fault f
    | .refused r => .refused r

/-- Two runs that complete and leave the same state, the responses given left aside. -/
def SameButResponses (o p : StepOutcome) : Prop :=
  match o, p with
  | .next t, .next u => u = { t with responses := u.responses }
  | _, _ => False

/-- The order in which EXPAND_ALL first reads W[0..15] (R250, R253): step i reads i-16, i-15, i-7, i-2. -/
def expandReadOrder : List Nat := [0, 1, 9, 14, 2, 10, 15, 3, 11, 4, 12, 5, 13, 6, 7, 8]

end Sys2Proof.Safety
end

