-- ==== Sys2Proof/Certificates/Slice0/Obligations.lean ====
section
/-! DEFINITION. The statements for the provers, each one Prop, grouped as OBLIGATIONS.json lists them. `s` is any state,
reachable or not, unless a premise says otherwise. A premise `s.err = false` is the condition under which the spec accepts
the command (R364). An equation `exec i s = .next { s with … }` says the result, the frame and that the command completes:
every field it does not name is unchanged. `transact` is the `step(S, req)` of R362. The lists `inbox` and `responses` are
the model's form of the port (log entries 2 and 3). Where a command reads an undefined word the machine goes on with what the
word holds, as the hardware does, and notes the read (log entry 9); "in the spec's model" means `stopAtUndefinedRead` of the
outcome, the fault UndefinedRead of R366. -/

open Sys2Proof Sys2Proof.Machine Sys2Proof.Safety Sys2Proof.HostSide

/-! ## Encoding and decoding -/

/-- R101, R103, R105: words written out from the table, at least one of each family and format, decode to what they stand
for. -/
def Obligations.SampleWordsDecode : Prop :=
  decode ⟨0x01000000, []⟩ = .ok .init ∧
    decode ⟨0x0600000F, [0x00000018]⟩ = .ok (.writeW 15 0x00000018) ∧
    decode ⟨0x03000007, []⟩ = .ok (.readH 7) ∧
    decode ⟨0x0A000000, []⟩ = .ok .readStatus ∧
    decode ⟨0x1100003F, []⟩ = .ok (.expandStep 63) ∧
    decode ⟨0x21000005, []⟩ = .ok (.round 5) ∧
    decode ⟨0x30000000, []⟩ = .ok .accum ∧
    decode ⟨0x40000007, [0x12345678]⟩ = .ok (.rotr 7 0x12345678) ∧
    decode ⟨0x46000000, [0xFFFFFFFF, 0x12345678, 0x9ABCDEF0]⟩ = .ok (.ch 0xFFFFFFFF 0x12345678 0x9ABCDEF0) ∧
    decode ⟨0x10000000, List.replicate 16 0x61616161⟩ = .ok (.loadBlock (Vector.replicate 16 0x61616161))

/-- R101, R103, R105: decoding what an instruction encodes to gives it back, for every instruction and every operand. -/
def Obligations.DecodeOfEncode : Prop := ∀ i : Instr, decode (encode i) = .ok i

/-- R101, R105, R107: a request that decodes is the encoding of its instruction, so no bit of it is dropped and no two
requests decode to one instruction. -/
def Obligations.EncodeOfDecode : Prop := ∀ (r : Request) (i : Instr), decode r = .ok i → encode i = r

/-- R106: every unassigned opcode is illegal, whatever the other bits and the operand words, and no assigned one is. -/
def Obligations.UnassignedOpcodesAreIllegal : Prop :=
  ∀ (s : State) (r : Request), s.err = false →
    (unassigned (r.cmd.toNat / 2 ^ 24) →
      transact r s = .next { s with err := true, errCode := 0x01, errInfo := r.cmd, responses := .nak 0x01 :: s.responses }) ∧
    (¬ unassigned (r.cmd.toNat / 2 ^ 24) → decode r ≠ .error .illegalOpcode)

/-- R109: `classify` gives Illegal, ReservedBits, IndexRange or the command exactly as the decoding procedure lists them,
on every command word. -/
def Obligations.ClassifyFollowsTheProcedure : Prop :=
  ∀ cmd : Word,
    classify cmd =
      if unassigned (cmd.toNat / 2 ^ 24) then .illegal
      else if hasReservedBits (cmd.toNat / 2 ^ 24) cmd.toNat then .reservedBits
      else if indexOutside (cmd.toNat / 2 ^ 24) (cmd.toNat % 2 ^ 8) then .indexRange
      else .command (opField cmd) (argField cmd)

/-! ## The step, the checks, the errors -/

/-- R72, R362: when the next host action is a request, the step is that request's whole transaction, on the state with the
request taken from the inbox; when the request decodes to an instruction, it is that instruction's `exec`. The step adds
nothing else. The inbox is log entry 2. -/
def Obligations.StepRunsTheDecodedInstruction : Prop :=
  ∀ (s : State) (r : Request) (rest : List HostAction), s.inbox = .request r :: rest →
    step s = transact r { s with inbox := rest } ∧
    ∀ i : Instr, decode r = .ok i → step s = exec i { s with inbox := rest }

/-- R362, R104: the first check that fails, in the fixed order, is the NAK; a request that passes all of them is performed
and is answered by ACK with exactly its opcode's number of results. The UndefinedRead of step 6 is noted and stops `modelStep`
only (log entry 9). -/
def Obligations.ChecksRunInTheFixedOrder : Prop :=
  ∀ (s : State) (r : Request),
    match firstFailingCheck s r with
    | some c => ∃ t, transact r s = .next t ∧ t.responses = .nak c.code :: s.responses
    | none =>
      ∃ i, decode r = .ok i ∧ i.wellFormed = true ∧
        ∃ t results, transact r s = .next t ∧ t.responses = .ack results :: s.responses ∧
          results.length = resultCount (r.cmd.toNat / 2 ^ 24)

/-- R361, R363: a request that fails a check has none of the effects of its command; the first error other than LOCKED sets
ERR and saves the code and the command word, a later one records nothing. -/
def Obligations.ErrorsArePreciseAndRecordedOnce : Prop :=
  ∀ (s : State) (r : Request) (c : ErrorCode), firstFailingCheck s r = some c →
    transact r s = .next
      { s with
        responses := .nak c.code :: s.responses
        err := if c ≠ .locked ∧ s.err = false then true else s.err
        errCode := if c ≠ .locked ∧ s.err = false then c.code else s.errCode
        errInfo := if c ≠ .locked ∧ s.err = false then r.cmd else s.errInfo }

/-- R364: while ERR = 1 the engine accepts READ_STATUS and READ_ERRINFO, every other request is NAK(LOCKED) and changes
nothing; no transaction at all clears ERR or touches ERRCODE, ERRINFO, H, V or W; a reset clears ERR. -/
def Obligations.LockoutUntilReset : Prop :=
  ∀ s : State, s.err = true →
    (∀ r, r.cmd.toNat / 2 ^ 24 ≠ 0x0A → r.cmd.toNat / 2 ^ 24 ≠ 0x0B →
      transact r s = .next { s with responses := .nak 0x05 :: s.responses }) ∧
    transact ⟨0x0A000000, []⟩ s = .next { s with responses := .ack [statusWord s] :: s.responses } ∧
    transact ⟨0x0B000000, []⟩ s = .next { s with responses := .ack [s.errInfo] :: s.responses } ∧
    (∀ r, ∃ t, transact r s = .next t ∧ t.err = true ∧ t.errCode = s.errCode ∧ t.errInfo = s.errInfo ∧ t.h = s.h ∧
      t.v = s.v ∧ t.w = s.w) ∧
    (hostReset s).err = false

/-- R364, R105: an instruction that meets the locked engine is NAK(LOCKED) and changes nothing, for all commands but
READ_STATUS and READ_ERRINFO. -/
def Obligations.LockedInstructionsAreRefused : Prop :=
  ∀ (i : Instr) (s : State), s.err = true → i ≠ .readStatus → i ≠ .readErrinfo →
    exec i s = .next { s with responses := .nak 0x05 :: s.responses }

/-- R105, R361, R363: a CMD-I instruction whose index is outside its range is NAK(INDEX_RANGE), is recorded with its command
word, and changes nothing else. Where the instruction traps, not where it completes. -/
def Obligations.OutOfRangeIndexIsRefused : Prop :=
  ∀ (i : Instr) (s : State), s.err = false → i.wellFormed = false →
    exec i s = .next { s with err := true, errCode := 0x04, errInfo := (encode i).cmd, responses := .nak 0x04 :: s.responses }

/-- R365, R400: the host's actions are taken one by one, and nothing stops the engine; each request gets exactly one response,
a reset is `hostReset` and gets none. The inbox is log entry 2. -/
def Obligations.OneResponsePerRequest : Prop :=
  ∀ (s : State) (a : HostAction) (rest : List HostAction), s.inbox = a :: rest →
    ∃ t, step s = .next t ∧ t.inbox = rest ∧
      match a with
      | .request _ => ∃ response, t.responses = response :: s.responses
      | .reset => t = hostReset { s with inbox := rest }

/-- R376: with no host action waiting the engine is idle and holds its state (log entry 2). -/
def Obligations.IdleEngineHoldsItsState : Prop := ∀ s : State, s.inbox = [] → step s = .next s

/-- R400: a reset leaves H, V and W undefined, clears ERR, ERRCODE and ERRINFO, keeps the ROMs and gives no response. The note
of an undefined read is cleared and the resets are counted (log entries 1 and 9). -/
def Obligations.HostResetClearsTheEngine : Prop :=
  ∀ s : State,
    (hostReset s).err = false ∧ (hostReset s).errCode = 0x00 ∧ (hostReset s).errInfo = 0x00000000 ∧
      (∀ i < 8, undefinedAt (hostReset s).h i ∧ undefinedAt (hostReset s).v i) ∧
      (∀ i < 64, undefinedAt (hostReset s).w i) ∧ (hostReset s).k = s.k ∧ (hostReset s).iv = s.iv ∧
      (hostReset s).responses = s.responses ∧ (hostReset s).undefinedRead = none ∧ (hostReset s).resets = s.resets + 1

/-- R44: the state after reset: H, V and W undefined, the ROM tables, STATUS and ERRINFO 0. What the undefined words hold is
no part of it (log entry 1). -/
def Obligations.StateAfterReset : Prop :=
  (∀ i < 8, undefinedAt State.reset.h i) ∧ (∀ i < 8, undefinedAt State.reset.v i) ∧
    (∀ i < 64, undefinedAt State.reset.w i) ∧ State.reset.k = romK ∧ State.reset.iv = romIv ∧
    statusWord State.reset = 0x00000000 ∧ State.reset.err = false ∧ State.reset.errCode = 0x00 ∧
    State.reset.errInfo = 0x00000000 ∧ State.reset.undefinedRead = none

/-! ## Whole-machine rules and invariants -/

/-- R37: no step changes K or IV, a reset included, and READ_K and READ_IV never raise UndefinedRead, in any state of a run
without one. -/
def Obligations.RomsNeverChange : Prop :=
  (∀ s t : State, step s = .next t → t.k = s.k ∧ t.iv = s.iv) ∧
    ∀ (s : State) (index : BitVec 8), s.undefinedRead = none →
      (∃ t, stopAtUndefinedRead (exec (.readK index) s) = .next t) ∧
      ∃ t, stopAtUndefinedRead (exec (.readIv index) s) = .next t

/-- R35: K[i] is the first 32 bits of the fractional part of the cube root of the (i+1)-th prime: with r the floor of
cbrt(p) * 2^32, K[i] is r mod 2^32. No step changes it. -/
def Obligations.RoundConstantsAreCubeRootBits : Prop :=
  (∀ i < 64, ∃ r : Nat, r ^ 3 ≤ Nat.nth Nat.Prime i * 2 ^ 96 ∧ Nat.nth Nat.Prime i * 2 ^ 96 < (r + 1) ^ 3 ∧
    (wordAt State.reset.k i).toNat = r % 2 ^ 32) ∧
  ∀ s t : State, step s = .next t → t.k = s.k

/-- R36: IV[k] is the first 32 bits of the fractional part of the square root of the (k+1)-th prime, and no step derives it
anew. -/
def Obligations.InitialHashIsSquareRootBits : Prop :=
  (∀ k < 8, ∃ r : Nat, r ^ 2 ≤ Nat.nth Nat.Prime k * 2 ^ 64 ∧ Nat.nth Nat.Prime k * 2 ^ 64 < (r + 1) ^ 2 ∧
    (wordAt State.reset.iv k).toNat = r % 2 ^ 32) ∧
  ∀ s t : State, step s = .next t → t.iv = s.iv

/-- R38, R39, R363: every step keeps the error registers consistent: ERRCODE 0 and ERRINFO 0 while ERR = 0; while
ERR = 1, ERRINFO is a command word that fails the check ERRCODE names first, never LOCKED's code. -/
def Obligations.StepKeepsErrorRegisters : Prop :=
  ∀ s t : State, ErrorRegistersOk s → step s = .next t → ErrorRegistersOk t

/-- R44, R38, R39: the invariant of the error registers and that of the ROMs hold after reset. -/
def Obligations.InvariantsHoldAfterReset : Prop := ErrorRegistersOk State.reset ∧ RomsIntact State.reset

/-- R43, R366, R400: no step but a reset makes a defined word of H, V or W undefined, and none but a reset takes back or
changes the note of the first undefined read (log entry 9). -/
def Obligations.DefinedWordsStayDefined : Prop :=
  ∀ s t : State, step s = .next t → s.inbox.head? ≠ some .reset →
    MarksKept s t ∧ ∀ read, s.undefinedRead = some read → t.undefinedRead = some read

/-- R43, R366: the spec's model never sees what an undefined word holds: two states that differ only there stop with the same
UndefinedRead, or step to states that differ only there. So a claim about `modelStep` rests on no value of log entry 1. -/
def Obligations.UndefinedValuesAreNeverSeen : Prop :=
  ∀ s t : State, SameVisible s t →
    match modelStep s, modelStep t with
    | .next s', .next t' => SameVisible s' t'
    | .fault f, .fault g => f = g
    | _, _ => False

/-- R73, R413: a read or a word operation that answers changes no state (but the note of an undefined read, which is no state
of the engine, log entry 9), and asked again it gives the same answer and changes nothing at all. -/
def Obligations.ObservationChangesNothing : Prop :=
  ∀ (i : Instr) (s t : State), observes i = true → i.wellFormed = true → exec i s = .next t →
    t = { s with responses := t.responses, undefinedRead := t.undefinedRead } ∧
    ∀ u, exec i t = .next u → u = { t with responses := u.responses } ∧ u.responses.head? = t.responses.head?

/-! ## Word operations: each completes in every unlocked state and writes no state -/

/-- R140, R160: ROTR. -/
def Obligations.RotrRotatesRight : Prop :=
  ∀ (s : State) (n : BitVec 5) (x : Word), s.err = false →
    ∃ y : Word, exec (.rotr n x) s = .next { s with responses := .ack [y] :: s.responses } ∧
      (∀ j < 32, y.getLsbD j = x.getLsbD ((j + n.toNat) % 32)) ∧
      y.toNat = (x.toNat >>> n.toNat) ||| ((x.toNat <<< (32 - n.toNat)) % 2 ^ 32) ∧
      (n = 0 → y = x)

/-- R141, R161: SHR. -/
def Obligations.ShrShiftsRightWithZeros : Prop :=
  ∀ (s : State) (n : BitVec 5) (x : Word), s.err = false →
    ∃ y : Word, exec (.shr n x) s = .next { s with responses := .ack [y] :: s.responses } ∧
      y.toNat = x.toNat / 2 ^ n.toNat ∧ (∀ j, 32 - n.toNat ≤ j → y.getLsbD j = false) ∧ (n = 0 → y = x)

/-- R142, R162: NOT. -/
def Obligations.NotComplementsWithin32Bits : Prop :=
  ∀ (s : State) (x : Word), s.err = false →
    ∃ y : Word, exec (.not x) s = .next { s with responses := .ack [y] :: s.responses } ∧
      y.toNat = 2 ^ 32 - 1 - x.toNat ∧ ∀ j < 32, y.getLsbD j = !x.getLsbD j

/-- R143, R163, R164: AND and XOR. -/
def Obligations.AndXorAreBitwise : Prop :=
  ∀ (s : State) (x y : Word), s.err = false →
    (∃ z : Word, exec (.and x y) s = .next { s with responses := .ack [z] :: s.responses } ∧
      ∀ j, z.getLsbD j = true ↔ x.getLsbD j = true ∧ y.getLsbD j = true) ∧
    (∃ z : Word, exec (.xor x y) s = .next { s with responses := .ack [z] :: s.responses } ∧
      ∀ j, z.getLsbD j = true ↔ x.getLsbD j ≠ y.getLsbD j)

/-- R144, R165: ADD is the sum mod 2^32, no carry kept, no flag set, and the order of the terms does not matter. -/
def Obligations.AddWrapsModulo : Prop :=
  (∀ (s : State) (x y : Word), s.err = false →
    ∃ z : Word, exec (.add x y) s = .next { s with responses := .ack [z] :: s.responses } ∧
      z.toNat = (x.toNat + y.toNat) % 2 ^ 32) ∧
  (∀ x y : Word, addWord x y = addWord y x) ∧
  ∀ x y z : Word, addWord (addWord x y) z = addWord x (addWord y z)

/-- R145, R146, R166, R167: CH chooses, MAJ takes the majority, bit by bit, and both are the source's formulas. -/
def Obligations.ChoiceAndMajorityBitByBit : Prop :=
  ∀ (s : State) (x y z : Word), s.err = false →
    (∃ c : Word, exec (.ch x y z) s = .next { s with responses := .ack [c] :: s.responses } ∧
      c = xorWord (andWord x y) (andWord (notWord x) z) ∧
      ∀ j < 32, c.getLsbD j = if x.getLsbD j then y.getLsbD j else z.getLsbD j) ∧
    (∃ m : Word, exec (.maj x y z) s = .next { s with responses := .ack [m] :: s.responses } ∧
      m = xorWord (xorWord (andWord x y) (andWord x z)) (andWord y z) ∧
      ∀ j < 32, m.getLsbD j = decide (2 ≤ (x.getLsbD j).toNat + (y.getLsbD j).toNat + (z.getLsbD j).toNat))

/-- R147 to R151, R168 to R171: the four sigma functions as the source's formulas and bit by bit; the third term of SSIG0 and SSIG1 is a shift, so its
bits above 31 are 0. -/
def Obligations.SigmaFunctionsBitByBit : Prop :=
  ∀ (s : State) (x : Word), s.err = false →
    (∃ y : Word, exec (.bsig0 x) s = .next { s with responses := .ack [y] :: s.responses } ∧
      y = xorWord (xorWord (rotr x 2) (rotr x 13)) (rotr x 22) ∧
      ∀ j < 32, y.getLsbD j =
        ((x.getLsbD ((j + 2) % 32) ^^ x.getLsbD ((j + 13) % 32)) ^^ x.getLsbD ((j + 22) % 32))) ∧
    (∃ y : Word, exec (.bsig1 x) s = .next { s with responses := .ack [y] :: s.responses } ∧
      y = xorWord (xorWord (rotr x 6) (rotr x 11)) (rotr x 25) ∧
      ∀ j < 32, y.getLsbD j =
        ((x.getLsbD ((j + 6) % 32) ^^ x.getLsbD ((j + 11) % 32)) ^^ x.getLsbD ((j + 25) % 32))) ∧
    (∃ y : Word, exec (.ssig0 x) s = .next { s with responses := .ack [y] :: s.responses } ∧
      y = xorWord (xorWord (rotr x 7) (rotr x 18)) (shr x 3) ∧
      ∀ j < 32, y.getLsbD j =
        ((x.getLsbD ((j + 7) % 32) ^^ x.getLsbD ((j + 18) % 32)) ^^ (decide (j + 3 < 32) && x.getLsbD (j + 3)))) ∧
    (∃ y : Word, exec (.ssig1 x) s = .next { s with responses := .ack [y] :: s.responses } ∧
      y = xorWord (xorWord (rotr x 17) (rotr x 19)) (shr x 10) ∧
      ∀ j < 32, y.getLsbD j =
        ((x.getLsbD ((j + 17) % 32) ^^ x.getLsbD ((j + 19) % 32)) ^^ (decide (j + 10 < 32) && x.getLsbD (j + 10))))

/-! ## Initialisation and state access -/

/-- R200: INIT copies IV into H in every unlocked state, whatever H holds; all of H becomes defined. -/
def Obligations.InitLoadsTheInitialHash : Prop :=
  ∀ s : State, s.err = false →
    ∃ t, exec .init s = .next t ∧ (∀ k < 8, t.h[k]? = (s.iv[k]?).map definedWord) ∧
      t = { s with h := t.h, responses := .ack [] :: s.responses }

/-- R201, R203, R205: WRITE_H, WRITE_V and WRITE_W set one word, which becomes defined; the other words of the array and
all other state are unchanged. -/
def Obligations.WritesSetOneWord : Prop :=
  ∀ (s : State) (index : BitVec 8) (x : Word), s.err = false →
    (index.toNat ≤ 7 → ∃ t, exec (.writeH index x) s = .next t ∧ t.h[index.toNat]? = some ⟨x, true⟩ ∧
      (∀ j, j ≠ index.toNat → t.h[j]? = s.h[j]?) ∧ t = { s with h := t.h, responses := .ack [] :: s.responses }) ∧
    (index.toNat ≤ 7 → ∃ t, exec (.writeV index x) s = .next t ∧ t.v[index.toNat]? = some ⟨x, true⟩ ∧
      (∀ j, j ≠ index.toNat → t.v[j]? = s.v[j]?) ∧ t = { s with v := t.v, responses := .ack [] :: s.responses }) ∧
    (index.toNat ≤ 63 → ∃ t, exec (.writeW index x) s = .next t ∧ t.w[index.toNat]? = some ⟨x, true⟩ ∧
      (∀ j, j ≠ index.toNat → t.w[j]? = s.w[j]?) ∧ t = { s with w := t.w, responses := .ack [] :: s.responses })

/-- R202, R204, R206: READ_H, READ_V and READ_W answer the word and change no state; a word that is undefined, whose value is
free (log entry 1), is answered too, and the first such read is noted (R366, log entry 9). -/
def Obligations.ReadsAnswerTheWord : Prop :=
  ∀ (s : State) (index : BitVec 8) (c : MarkedWord), s.err = false →
    (s.h[index.toNat]? = some c →
      exec (.readH index) s = .next
        { s with
          responses := .ack [c.value] :: s.responses
          undefinedRead := if c.defined then s.undefinedRead else s.undefinedRead.or (some ⟨.H, index.toNat⟩) }) ∧
    (s.v[index.toNat]? = some c →
      exec (.readV index) s = .next
        { s with
          responses := .ack [c.value] :: s.responses
          undefinedRead := if c.defined then s.undefinedRead else s.undefinedRead.or (some ⟨.V, index.toNat⟩) }) ∧
    (s.w[index.toNat]? = some c →
      exec (.readW index) s = .next
        { s with
          responses := .ack [c.value] :: s.responses
          undefinedRead := if c.defined then s.undefinedRead else s.undefinedRead.or (some ⟨.W, index.toNat⟩) })

/-- R43, R202, R204, R206, R366: in the spec's model READ_H, READ_V and READ_W of an undefined word stop with UndefinedRead
naming it. -/
def Obligations.ReadsNameUndefinedWords : Prop :=
  ∀ (s : State) (index : BitVec 8), s.err = false → s.undefinedRead = none →
    (undefinedAt s.h index.toNat → stopAtUndefinedRead (exec (.readH index) s) = .fault ⟨.H, index.toNat⟩) ∧
    (undefinedAt s.v index.toNat → stopAtUndefinedRead (exec (.readV index) s) = .fault ⟨.V, index.toNat⟩) ∧
    (undefinedAt s.w index.toNat → stopAtUndefinedRead (exec (.readW index) s) = .fault ⟨.W, index.toNat⟩)

/-- R207, R208: READ_K and READ_IV answer the ROM word in every unlocked state, before INIT too. -/
def Obligations.RomReadsAnswerTheRomWord : Prop :=
  ∀ (s : State) (index : BitVec 8), s.err = false →
    (index.toNat ≤ 63 → ∃ x, s.k[index.toNat]? = some x ∧
      exec (.readK index) s = .next { s with responses := .ack [x] :: s.responses }) ∧
    (index.toNat ≤ 7 → ∃ x, s.iv[index.toNat]? = some x ∧
      exec (.readIv index) s = .next { s with responses := .ack [x] :: s.responses })

/-- R38, R209, R210: READ_STATUS and READ_ERRINFO complete in every state, locked or not; STATUS = ERR + ERRCODE * 2^8, so its
reserved bits read 0. -/
def Obligations.StatusReadsAlwaysAnswer : Prop :=
  ∀ s : State,
    (∃ y : Word, exec .readStatus s = .next { s with responses := .ack [y] :: s.responses } ∧
      y.toNat = s.err.toNat + s.errCode.toNat * 2 ^ 8 ∧
      (∀ j, 1 ≤ j ∧ j ≤ 7 ∨ 16 ≤ j → y.getLsbD j = false)) ∧
    exec .readErrinfo s = .next { s with responses := .ack [s.errInfo] :: s.responses }

/-! ## The schedule expander -/

/-- R251: LOAD_BLOCK writes W[0..15] and keeps W[16..63], H and V. -/
def Obligations.LoadBlockWritesSixteenWords : Prop :=
  ∀ (s : State) (b : Block), s.err = false →
    ∃ t, exec (.loadBlock b) s = .next t ∧ (∀ j < 16, t.w[j]? = (b[j]?).map definedWord) ∧
      (∀ j, 16 ≤ j → t.w[j]? = s.w[j]?) ∧ t = { s with w := t.w, responses := .ack [] :: s.responses }

/-- R250, R252: EXPAND_STEP i, i in 16..63, writes W[i] from what its four sources hold, and changes nothing else; with the
four sources defined it notes no undefined read. -/
def Obligations.ExpandStepWritesTheRecurrence : Prop :=
  ∀ (s : State) (index : BitVec 8) (c16 c15 c7 c2 : MarkedWord), s.err = false → 16 ≤ index.toNat → index.toNat ≤ 63 →
    s.w[index.toNat - 16]? = some c16 → s.w[index.toNat - 15]? = some c15 →
    s.w[index.toNat - 7]? = some c7 → s.w[index.toNat - 2]? = some c2 →
    ∃ t, exec (.expandStep index) s = .next t ∧
      t.w[index.toNat]? = some ⟨c16.value + ssig0 c15.value + c7.value + ssig1 c2.value, true⟩ ∧
      (∀ j, j ≠ index.toNat → t.w[j]? = s.w[j]?) ∧
      t = { s with w := t.w, undefinedRead := t.undefinedRead, responses := .ack [] :: s.responses } ∧
      (c16.defined = true → c15.defined = true → c7.defined = true → c2.defined = true →
        t.undefinedRead = s.undefinedRead)

/-- R250, R252: in the spec's model EXPAND_STEP stops at the first undefined word in the order W[i-16], W[i-15], W[i-7],
W[i-2]. -/
def Obligations.ExpandStepNamesTheFirstUndefinedWord : Prop :=
  ∀ (s : State) (index : BitVec 8) (p : Fin 4), s.err = false → s.undefinedRead = none → 16 ≤ index.toNat →
    index.toNat ≤ 63 → (∀ q : Fin 4, q < p → definedAt s.w (index.toNat - [16, 15, 7, 2][q])) →
    undefinedAt s.w (index.toNat - [16, 15, 7, 2][p]) →
    stopAtUndefinedRead (exec (.expandStep index) s) = .fault ⟨.W, index.toNat - [16, 15, 7, 2][p]⟩

/-- R254, R250: Schedule(b) begins with the block and satisfies the source's recurrence, and LOAD_BLOCK b followed by
EXPAND_ALL, from any unlocked state, leaves it in W. -/
def Obligations.ScheduleFollowsTheRecurrence : Prop :=
  ∀ b : Block,
    (∀ j < 16, (schedule b)[j]? = b[j]?) ∧
    (∀ (i : Nat) (lo : 16 ≤ i) (hi : i < 64),
      (schedule b)[i] =
        (schedule b)[i - 16] +
          (rotr (schedule b)[i - 15] 7 ^^^ rotr (schedule b)[i - 15] 18 ^^^ shr (schedule b)[i - 15] 3) +
          (schedule b)[i - 7] +
          (rotr (schedule b)[i - 2] 17 ^^^ rotr (schedule b)[i - 2] 19 ^^^ shr (schedule b)[i - 2] 10)) ∧
    ∀ s : State, s.err = false →
      ∃ t, runInstrs [.loadBlock b, .expandAll] s = .next t ∧ t.w = definedWords (schedule b)

/-- R253, R254: EXPAND_ALL keeps W[0..15] and leaves W[16..63] as the schedule of the block W[0..15] hold, whatever W[16..63]
held; from a loaded block it notes no undefined read and leaves W = Schedule(b), all defined. -/
def Obligations.ExpandAllComputesTheSchedule : Prop :=
  ∀ (s : State) (b : Block), s.err = false → (∀ j < 16, s.w[j]?.map MarkedWord.value = b[j]?) →
    ∃ t, exec .expandAll s = .next t ∧ (∀ j < 16, t.w[j]? = s.w[j]?) ∧
      (∀ j, 16 ≤ j → t.w[j]? = ((schedule b)[j]?).map definedWord) ∧
      t = { s with w := t.w, undefinedRead := t.undefinedRead, responses := .ack [] :: s.responses } ∧
      ((∀ j < 16, definedAt s.w j) → t.w = definedWords (schedule b) ∧ t.undefinedRead = s.undefinedRead)

/-- R253: in the spec's model EXPAND_ALL with an undefined word among W[0..15] stops and names the first one its steps read. -/
def Obligations.ExpandAllNamesTheFirstUndefinedWord : Prop :=
  ∀ (s : State) (p : Fin 16), s.err = false → s.undefinedRead = none →
    (∀ q : Fin 16, q < p → definedAt s.w (expandReadOrder.getD q 0)) → undefinedAt s.w (expandReadOrder.getD p 0) →
    stopAtUndefinedRead (exec .expandAll s) = .fault ⟨.W, expandReadOrder.getD p 0⟩

/-- R253, R111: EXPAND_ALL leaves the same state as EXPAND_STEP 16, ..., EXPAND_STEP 63 one by one, the same note of an
undefined read included, in every unlocked state. -/
def Obligations.ExpandAllEqualsStepwise : Prop :=
  ∀ s : State, s.err = false →
    SameButResponses (exec .expandAll s)
      (runInstrs (expandIndexes.map fun i => .expandStep (BitVec.ofNat 8 i)) s)

/-! ## The compression rounds -/

/-- R280: LOAD_V copies the words of H into V, which become defined, and changes nothing else; in the spec's model it stops at
the lowest undefined word of H. -/
def Obligations.LoadVCopiesTheHashState : Prop :=
  ∀ s : State, s.err = false →
    (∃ t, exec .loadV s = .next t ∧ (∀ k < 8, t.v[k]? = s.h[k]?.map fun c => ⟨c.value, true⟩) ∧
      t = { s with v := t.v, undefinedRead := t.undefinedRead, responses := .ack [] :: s.responses }) ∧
    ((∀ k < 8, definedAt s.h k) → exec .loadV s = .next { s with v := s.h, responses := .ack [] :: s.responses }) ∧
    ∀ k, s.undefinedRead = none → (∀ j < k, definedAt s.h j) → undefinedAt s.h k →
      stopAtUndefinedRead (exec .loadV s) = .fault ⟨.H, k⟩

/-- R281, R283: ROUND i: V becomes (T1 + T2, a, b, c, d + T1, e, f, g), all from the words V and W[i] held before; with them
defined it notes no undefined read. -/
def Obligations.RoundUpdatesTheWorkingVariables : Prop :=
  ∀ (s : State) (index : BitVec 8) (a b c d e f g h kw : Word) (w : MarkedWord), s.err = false → index.toNat ≤ 63 →
    valuesOf s.v = #v[a, b, c, d, e, f, g, h] → s.w[index.toNat]? = some w → s.k[index.toNat]? = some kw →
    ∃ t, exec (.round index) s = .next t ∧
      t.v = definedWords #v[(h + bsig1 e + choice e f g + kw + w.value) + (bsig0 a + majority a b c), a, b, c,
          d + (h + bsig1 e + choice e f g + kw + w.value), e, f, g] ∧
      t = { s with v := t.v, undefinedRead := t.undefinedRead, responses := .ack [] :: s.responses } ∧
      ((∀ k < 8, definedAt s.v k) → w.defined = true → t.undefinedRead = s.undefinedRead)

/-- R281: in the spec's model ROUND stops at the lowest undefined word of V, else at W[i]. -/
def Obligations.RoundNamesTheFirstUndefinedWord : Prop :=
  ∀ (s : State) (index : BitVec 8), s.err = false → s.undefinedRead = none → index.toNat ≤ 63 →
    (∀ k, (∀ j < k, definedAt s.v j) → undefinedAt s.v k →
      stopAtUndefinedRead (exec (.round index) s) = .fault ⟨.V, k⟩) ∧
    ((∀ k < 8, definedAt s.v k) → undefinedAt s.w index.toNat →
      stopAtUndefinedRead (exec (.round index) s) = .fault ⟨.W, index.toNat⟩)

/-- R282, R283: Round is the source's round; ROUNDS_ALL sets V to Rounds(V, W), the 64th of the tuples u that start at what V
holds and go on by Round with K[i] and W[i]; with V and W defined it notes no undefined read. -/
def Obligations.RoundsAllFoldsTheRound : Prop :=
  (∀ a b c d e f g h k w : Word,
    roundWords #v[a, b, c, d, e, f, g, h] k w =
      #v[(h + bsig1 e + choice e f g + k + w) + (bsig0 a + majority a b c), a, b, c,
        d + (h + bsig1 e + choice e f g + k + w), e, f, g]) ∧
  ∀ s : State, s.err = false →
    ∃ (t : State) (u : Nat → Vector Word 8),
      u 0 = valuesOf s.v ∧ (∀ i < 64, u (i + 1) = roundWords (u i) (wordAt s.k i) (wordAt (valuesOf s.w) i)) ∧
        u 64 = rounds (valuesOf s.v) s.k (valuesOf s.w) ∧ exec .roundsAll s = .next t ∧ t.v = definedWords (u 64) ∧
        t = { s with v := t.v, undefinedRead := t.undefinedRead, responses := .ack [] :: s.responses } ∧
        ((∀ k < 8, definedAt s.v k) → (∀ j < 64, definedAt s.w j) → t.undefinedRead = s.undefinedRead)

/-- R282: in the spec's model ROUNDS_ALL stops at the lowest undefined word of V, else in the first round i whose W[i] is
undefined. -/
def Obligations.RoundsAllNamesTheFirstUndefinedWord : Prop :=
  ∀ s : State, s.err = false → s.undefinedRead = none →
    (∀ k, (∀ j < k, definedAt s.v j) → undefinedAt s.v k →
      stopAtUndefinedRead (exec .roundsAll s) = .fault ⟨.V, k⟩) ∧
    ((∀ k < 8, definedAt s.v k) → ∀ i, (∀ j < i, definedAt s.w j) → undefinedAt s.w i →
      stopAtUndefinedRead (exec .roundsAll s) = .fault ⟨.W, i⟩)

/-- R282, R111: ROUNDS_ALL leaves the same state as ROUND 0, ..., ROUND 63 one by one, the same note of an undefined read
included. -/
def Obligations.RoundsAllEqualsStepwise : Prop :=
  ∀ s : State, s.err = false →
    SameButResponses (exec .roundsAll s) (runInstrs (roundIndexes.map fun i => .round (BitVec.ofNat 8 i)) s)

/-! ## The accumulator and the whole block -/

/-- R310: ACCUM adds what V holds into H word by word, each sum mod 2^32 with no carry into the next word; with H and V
defined it notes no undefined read. -/
def Obligations.AccumAddsWordByWord : Prop :=
  ∀ s : State, s.err = false →
    ∃ t, exec .accum s = .next t ∧
      (∀ (k : Nat) (hk : k < 8), t.h[k] = ⟨BitVec.ofNat 32 (s.h[k].value.toNat + s.v[k].value.toNat), true⟩) ∧
      t = { s with h := t.h, undefinedRead := t.undefinedRead, responses := .ack [] :: s.responses } ∧
      ((∀ k < 8, definedAt s.h k) → (∀ k < 8, definedAt s.v k) → t.undefinedRead = s.undefinedRead)

/-- R310: in the spec's model ACCUM stops at the lowest undefined word of H, else of V. -/
def Obligations.AccumNamesTheFirstUndefinedWord : Prop :=
  ∀ s : State, s.err = false → s.undefinedRead = none →
    (∀ k, (∀ j < k, definedAt s.h j) → undefinedAt s.h k → stopAtUndefinedRead (exec .accum s) = .fault ⟨.H, k⟩) ∧
    ((∀ k < 8, definedAt s.h k) → ∀ k, (∀ j < k, definedAt s.v j) → undefinedAt s.v k →
      stopAtUndefinedRead (exec .accum s) = .fault ⟨.V, k⟩)

/-- R311, R312: COMPRESS_BLOCK b leaves W = Schedule(b), V = Rounds(H, W) and H = Compress(H, b) for what H holds, whatever V
and W held; with H defined it notes no undefined read. -/
def Obligations.CompressBlockComputesCompress : Prop :=
  ∀ (s : State) (b : Block), s.err = false →
    ∃ t, exec (.compressBlock b) s = .next t ∧
      t = { s with
        h := definedWords (compress s.k (valuesOf s.h) b)
        v := definedWords (rounds (valuesOf s.h) s.k (schedule b))
        w := definedWords (schedule b)
        undefinedRead := t.undefinedRead
        responses := .ack [] :: s.responses } ∧
      ((∀ k < 8, definedAt s.h k) → t.undefinedRead = s.undefinedRead)

/-- R311: in the spec's model COMPRESS_BLOCK stops at the lowest undefined word of H; no word of V or W can make it stop. -/
def Obligations.CompressBlockNamesTheLowestUndefinedHash : Prop :=
  ∀ (s : State) (b : Block), s.err = false → s.undefinedRead = none →
    (∀ k, (∀ j < k, definedAt s.h j) → undefinedAt s.h k →
      stopAtUndefinedRead (exec (.compressBlock b) s) = .fault ⟨.H, k⟩) ∧
    ∀ read, stopAtUndefinedRead (exec (.compressBlock b) s) = .fault read → read.name = .H

/-- R311, R111: COMPRESS_BLOCK leaves the same state as LOAD_BLOCK, EXPAND_ALL, LOAD_V, ROUNDS_ALL, ACCUM one by one, the same
note of an undefined read included. -/
def Obligations.CompressBlockEqualsStepwise : Prop :=
  ∀ (s : State) (b : Block), s.err = false →
    SameButResponses (exec (.compressBlock b) s) (runInstrs [.loadBlock b, .expandAll, .loadV, .roundsAll, .accum] s)

/-- R312: Compress(h, b) = h + Rounds(h, Schedule(b)), word by word mod 2^32; COMPRESS_BLOCK b sets H to Compress(H, b); and
after INIT and COMPRESS_BLOCK b_1, ..., COMPRESS_BLOCK b_n, from any unlocked state, H holds H_n, with H_0 = IV and
H_j = Compress(H_(j-1), b_j), and no undefined read is noted. -/
def Obligations.CompressionChainsOverBlocks : Prop :=
  (∀ (k : Vector Word 64) (h : Vector Word 8) (b : Block) (j : Nat) (lt : j < 8),
    (compress k h b)[j] = h[j] + (rounds h k (schedule b))[j]) ∧
  (∀ (s : State) (b : Block), s.err = false →
    ∃ t, exec (.compressBlock b) s = .next t ∧ t.h = definedWords (compress s.k (valuesOf s.h) b)) ∧
  ∀ (s : State) (blocks : List Block), s.err = false →
    ∃ (t : State) (hash : Nat → Vector Word 8),
      runInstrs (.init :: blocks.map .compressBlock) s = .next t ∧ hash 0 = s.iv ∧
      (∀ (j : Nat) (lt : j < blocks.length), hash (j + 1) = compress s.k (hash j) blocks[j]) ∧
      t.h = definedWords (hash blocks.length) ∧ t.err = false ∧ t.k = s.k ∧ t.iv = s.iv ∧
      t.undefinedRead = s.undefinedRead

/-! ## The host's contract -/

/-- R330, R331, R333, R334, for a bit sequence below 2^64 bits and a message the host accepts (R332): the padding is one 1
bit, zeroBits 0 bits, the least number that makes whole blocks, and the length in 64 bits; the padded bytes are those bits,
each byte's bit 7 first; the blocks' words, in order, are the padded bytes formed big-endian, 16 words a block. That there are
floor((n + 8) / 64) + 1 blocks is the spec's own inference ("[derived: from this rule]", R331). -/
def Obligations.PaddingMakesWholeBlocks : Prop :=
  (∀ bits : List Bool, bits.length < 2 ^ 64 →
    (padBits bits).length % 512 = 0 ∧ (padBits bits).length = bits.length + 1 + zeroBits bits.length + 64 ∧
    (∀ k, (bits.length + 1 + k + 64) % 512 = 0 → zeroBits bits.length ≤ k) ∧
    (padBits bits).take bits.length = bits ∧ (padBits bits)[bits.length]? = some true ∧
    (∀ j, bits.length + 1 ≤ j → j < bits.length + 1 + zeroBits bits.length → (padBits bits)[j]? = some false) ∧
    bitsToNat ((padBits bits).drop (bits.length + 1 + zeroBits bits.length)) = bits.length) ∧
  ∀ message : List Byte, accepts message = true →
    (∀ (i j : Nat) (b : Byte), message[i]? = some b → j < 8 → (messageBits message)[8 * i + j]? = some (b.getLsbD (7 - j))) ∧
    (messageBits message).length = 8 * message.length ∧
    messageBits (padMessage message) = padBits (messageBits message) ∧
    (messageBlocks message).flatten.flatMap wordBytes = padMessage message ∧
    (∀ ws ∈ messageBlocks message, ws.length = 16) ∧
    (messageBlocks message).length = (message.length + 8) / 64 + 1

/-- R336, R75: the digest of 8 words is 32 bytes, and byte 4k+m is bits 31-8m down to 24-8m of word k, a leading zero byte
included. -/
def Obligations.DigestIsThirtyTwoBytes : Prop :=
  ∀ ds : List Word, ds.length = 8 →
    (assembleDigest ds).length = 32 ∧
      ∀ (k m : Nat) (d : Word), m < 4 → ds[k]? = some d →
        (assembleDigest ds)[4 * k + m]? = some (d.extractLsb' (24 - 8 * m) 8)

/-- R334, R336, R74, R75: forming words big-endian undoes the big-endian bytes of words. -/
def Obligations.WordFormationInvertsWordBytes : Prop := ∀ ws : List Word, formWords (assembleDigest ws) = ws

/-- R111, R412: RESTORE_STATE, taken as the host's next eight requests, writes all eight words of H and changes nothing else,
from every unlocked state. -/
def Obligations.RestoreStateWritesTheHashState : Prop :=
  ∀ (s : State) (hs : Vector Word 8) (rest : List HostAction), s.err = false →
    s.inbox = (restoreState hs.toList).map .request ++ rest →
    ∃ t, core.run 8 s = .next t ∧ t.h = definedWords hs ∧ t.inbox = rest ∧
      t = { s with h := t.h, inbox := t.inbox, responses := List.replicate 8 (.ack []) ++ s.responses }

/-- R335, R338, R332: the host's digest procedure, each block by COMPRESS_BLOCK or by the five stepwise commands. On an
unlocked engine, whatever its H, V and W hold, it meets no NAK and reads no undefined word, and the bytes it assembles from what READ_H
answers are the 32 bytes the pure functions of the spec give; on a locked engine no digest is computed and the engine is
reset; any NAK ends it so; a message the host refuses is not submitted. Given as the inbox of an unlocked engine, the same
requests all complete, and the last eight answers are the digest's words. The inbox and the responses, the latest first, are
log entries 2 and 3. -/
def Obligations.DigestProcedureAnswersTheDigest : Prop :=
  (∀ (form : Nat → BlockForm) (s : State) (message : List Byte), RomsIntact s → accepts message = true → s.err = false →
    (∃ (t : State) (bytes : List Byte), digest message = some bytes ∧ bytes.length = 32 ∧
      computeDigest form message s = some (.next (some bytes, t)) ∧ t.err = false ∧
      t.undefinedRead = s.undefinedRead) ∧
    ∀ requests : List Request, digestRequests form message = some requests → s.inbox = requests.map .request →
      ∃ (t : State) (ds : List Word), core.run requests.length s = .next t ∧ t.err = false ∧ t.inbox = [] ∧
        t.undefinedRead = s.undefinedRead ∧ ds.length = 8 ∧ t.responses.take 8 = (ds.map fun d => .ack [d]).reverse ∧
        digest message = some (assembleDigest ds)) ∧
  (∀ (form : Nat → BlockForm) (s : State) (message : List Byte), accepts message = true → s.err = true →
    ∃ t : State, computeDigest form message s = some (.next (none, t)) ∧ t.err = false) ∧
  (∀ (r : Request) (rs : List Request) (results : List Word) (s t : State) (code : BitVec 8), transact r s = .next t →
    t.responses.head? = some (.nak code) → issue (r :: rs) results s = .next (none, hostReset t)) ∧
  ∀ (form : Nat → BlockForm) (s : State) (message : List Byte), accepts message = false →
    computeDigest form message s = none ∧ digest message = none
end

