-- ==== Sys2Proof/Laws/Decode.lean ====
section
/-! SUPPORT. The fields of a command word made of fields (spec R101), and a command word as a number. -/

namespace Sys2Proof

/-- R101: the well-formed command word is OP * 2^24 + ARG. -/
theorem cmdWord_toNat (op arg : BitVec 8) : (cmdWord op arg).toNat = op.toNat * 2 ^ 24 + arg.toNat := by
  have h1 := op.isLt
  have h2 := arg.isLt
  simp only [cmdWord, BitVec.toNat_ofNat]
  omega

theorem opField_toNat (cmd : Word) : (opField cmd).toNat = cmd.toNat / 2 ^ 24 := by
  have := cmd.isLt
  simp only [opField, BitVec.extractLsb'_toNat, Nat.shiftRight_eq_div_pow]
  omega

theorem rsvField_toNat (cmd : Word) : (rsvField cmd).toNat = cmd.toNat / 2 ^ 8 % 2 ^ 16 := by
  simp only [rsvField, BitVec.extractLsb'_toNat, Nat.shiftRight_eq_div_pow]

theorem argField_toNat (cmd : Word) : (argField cmd).toNat = cmd.toNat % 2 ^ 8 := by
  simp only [argField, BitVec.extractLsb'_toNat, Nat.shiftRight_zero]

theorem amountReserved_toNat (arg : BitVec 8) : (amountReserved arg).toNat = arg.toNat / 2 ^ 5 := by
  have := arg.isLt
  simp only [amountReserved, BitVec.extractLsb'_toNat, Nat.shiftRight_eq_div_pow]
  omega

theorem amountField_toNat (arg : BitVec 8) : (amountField arg).toNat = arg.toNat % 2 ^ 5 := by
  simp only [amountField, BitVec.extractLsb'_toNat, Nat.shiftRight_zero]

@[simp] theorem opField_cmdWord (op arg : BitVec 8) : opField (cmdWord op arg) = op := by
  apply BitVec.eq_of_toNat_eq
  have h1 := op.isLt
  have h2 := arg.isLt
  rw [opField_toNat, cmdWord_toNat]
  omega

@[simp] theorem rsvField_cmdWord (op arg : BitVec 8) : rsvField (cmdWord op arg) = 0 := by
  apply BitVec.eq_of_toNat_eq
  have h2 := arg.isLt
  rw [rsvField_toNat, cmdWord_toNat]
  show _ = 0
  omega

@[simp] theorem argField_cmdWord (op arg : BitVec 8) : argField (cmdWord op arg) = arg := by
  apply BitVec.eq_of_toNat_eq
  have h2 := arg.isLt
  rw [argField_toNat, cmdWord_toNat]
  omega

/-- A command word whose reserved field is 0 is made of its OP and its ARG (R101). -/
theorem cmdWord_fields (cmd : Word) (rsv : rsvField cmd = 0) : cmdWord (opField cmd) (argField cmd) = cmd := by
  have zero : cmd.toNat / 2 ^ 8 % 2 ^ 16 = 0 := by rw [← rsvField_toNat, rsv]; rfl
  apply BitVec.eq_of_toNat_eq
  rw [cmdWord_toNat, opField_toNat, argField_toNat]
  omega

@[simp] theorem amountField_setWidth (n : BitVec 5) : amountField (n.setWidth 8) = n := by
  apply BitVec.eq_of_toNat_eq
  have := n.isLt
  rw [amountField_toNat, BitVec.toNat_setWidth]
  omega

@[simp] theorem amountReserved_setWidth (n : BitVec 5) : amountReserved (n.setWidth 8) = 0 := by
  apply BitVec.eq_of_toNat_eq
  have := n.isLt
  rw [amountReserved_toNat, BitVec.toNat_setWidth]
  show _ = 0
  omega

/-- An ARG byte whose reserved bits are 0 is its amount zero-extended (R102). -/
theorem setWidth_amountField (arg : BitVec 8) (reserved : amountReserved arg = 0) :
    (amountField arg).setWidth 8 = arg := by
  have zero : arg.toNat / 2 ^ 5 = 0 := by rw [← amountReserved_toNat, reserved]; rfl
  apply BitVec.eq_of_toNat_eq
  rw [BitVec.toNat_setWidth, amountField_toNat]
  omega

/-- The row a lookup finds has the OP it was looked up by. -/
theorem rowOf_op (op : BitVec 8) (row : Row) (found : rowOf op = some row) : row.op = op := by
  have := List.find?_some found
  simpa using this

/-- Decoding said once (R362 checks 2, 3, 4): it answers an instruction exactly when the OP has a row, no reserved bit is
set, the operand count is the row's, and the instruction is the one built from the fields. -/
theorem decode_eq_ok (r : Request) (i : Instr) (ok : decode r = .ok i) :
    ∃ row, rowOf (opField r.cmd) = some row ∧ reservedBitsSet row.format r.cmd = false ∧
      r.ops.length = row.operands ∧ build (opField r.cmd) (argField r.cmd) r.ops = some i := by
  unfold decode at ok
  split at ok
  · cases ok
  · next row found =>
    split at ok
    · cases ok
    · next clean =>
      split at ok
      · cases ok
      · next count =>
        split at ok
        · next j built =>
          cases ok
          rw [rowOf_op _ _ found] at built
          exact ⟨row, found, by simpa using clean, by simpa using count, built⟩
        · cases ok

/-- A command word with no reserved bit set has RSV = 0 (R107). -/
theorem rsvField_of_clean (format : Format) (cmd : Word) (clean : reservedBitsSet format cmd = false) :
    rsvField cmd = 0 := by
  simp only [reservedBitsSet, Bool.or_eq_false_iff, bne_eq_false_iff_eq] at clean
  exact clean.1

/-- In format CMD-N, ARG is 0 as well (R107). -/
theorem argField_of_clean (cmd : Word) (clean : reservedBitsSet .cmdN cmd = false) : argField cmd = 0 := by
  simp only [reservedBitsSet, Bool.or_eq_false_iff, bne_eq_false_iff_eq] at clean
  exact clean.2

/-- In format CMD-A, ARG[7:5] is 0 as well (R107). -/
theorem amountReserved_of_clean (cmd : Word) (clean : reservedBitsSet .cmdA cmd = false) :
    amountReserved (argField cmd) = 0 := by
  simp only [reservedBitsSet, Bool.or_eq_false_iff, bne_eq_false_iff_eq] at clean
  exact clean.2

theorem nullary_eq_some (ops : List Word) (i j : Instr) (eq : nullary ops i = some j) : ops = [] ∧ j = i := by
  match ops, eq with
  | [], eq => cases eq; exact ⟨rfl, rfl⟩

theorem unary_eq_some (ops : List Word) (f : Word → Instr) (j : Instr) (eq : unary ops f = some j) :
    ∃ x, ops = [x] ∧ j = f x := by
  match ops, eq with
  | [x], eq => cases eq; exact ⟨x, rfl, rfl⟩

theorem binary_eq_some (ops : List Word) (f : Word → Word → Instr) (j : Instr) (eq : binary ops f = some j) :
    ∃ x y, ops = [x, y] ∧ j = f x y := by
  match ops, eq with
  | [x, y], eq => cases eq; exact ⟨x, y, rfl, rfl⟩

theorem ternary_eq_some (ops : List Word) (f : Word → Word → Word → Instr) (j : Instr) (eq : ternary ops f = some j) :
    ∃ x y z, ops = [x, y, z] ∧ j = f x y z := by
  match ops, eq with
  | [x, y, z], eq => cases eq; exact ⟨x, y, z, rfl, rfl⟩

theorem blockary_eq_some (ops : List Word) (f : Block → Instr) (j : Instr) (eq : blockary ops f = some j) :
    ∃ b : Block, ops = b.toList ∧ j = f b := by
  unfold blockary at eq
  split at eq
  · next size => cases eq; exact ⟨⟨⟨ops⟩, size⟩, rfl, rfl⟩
  · cases eq

/-- A block's own words make the block again. -/
@[simp] theorem blockary_toList (b : Block) (f : Block → Instr) : blockary b.toList f = some (f b) := by
  have size : b.toList.length = 16 := by simp
  have same : (⟨⟨b.toList⟩, size⟩ : Block) = b := by
    apply Vector.ext
    intro j h
    simp
  rw [blockary, dif_pos size, same]

/-- The opcodes that have a row, as numbers (R105). -/
theorem rowOf_isSome (op : BitVec 8) (some : (rowOf op).isSome = true) :
    op.toNat ∈ [0x01, 0x02, 0x03, 0x04, 0x05, 0x06, 0x07, 0x08, 0x09, 0x0A, 0x0B, 0x10, 0x11, 0x12, 0x20, 0x21, 0x22,
      0x30, 0x31, 0x40, 0x41, 0x42, 0x43, 0x44, 0x45, 0x46, 0x47, 0x48, 0x49, 0x4A, 0x4B] := by
  revert op
  decide

end Sys2Proof
end

