-- ==== Sys2Proof/Laws/Operands.lean ====
section
/-! SUPPORT. What the array operations do, said once (spec R43, R366): reads of one word and of a whole array, the first
undefined word of a list of reads, writes of one word and of a block, and arrays all of whose words are defined. -/

namespace Sys2Proof.Machine

variable {n : Nat}

@[simp] theorem definedWord_value (x : Word) : (definedWord x).value = x := rfl

@[simp] theorem definedWord_defined (x : Word) : (definedWord x).defined = true := rfl

@[simp] theorem getElem_definedWords (xs : Vector Word n) (i : Nat) (h : i < n) :
    (definedWords xs)[i] = definedWord xs[i] := by
  simp [definedWords]

@[simp] theorem getElem?_definedWords (xs : Vector Word n) (i : Nat) :
    (definedWords xs)[i]? = (xs[i]?).map definedWord := by
  by_cases h : i < n
  · simp [h]
  · simp [h]

@[simp] theorem getElem_valuesOf (xs : Vector MarkedWord n) (i : Nat) (h : i < n) :
    (valuesOf xs)[i] = xs[i].value := by
  simp [valuesOf]

@[simp] theorem valuesOf_definedWords (xs : Vector Word n) : valuesOf (definedWords xs) = xs := by
  ext i h; simp

/-- An array whose words hold the words of `xs`, all defined. -/
theorem eq_definedWords (ys : Vector MarkedWord n) (xs : Vector Word n)
    (same : ∀ i < n, ys[i]? = (xs[i]?).map definedWord) : ys = definedWords xs := by
  apply Vector.ext
  intro i h
  simpa [h] using same i h

/-- An array all of whose marks are set holds its own values, all defined. -/
theorem definedWords_valuesOf (ys : Vector MarkedWord n) (all : ∀ (i : Nat) (h : i < n), ys[i].defined = true) :
    definedWords (valuesOf ys) = ys := by
  apply Vector.ext
  intro i h
  have mark := all i h
  rw [getElem_definedWords, getElem_valuesOf]
  generalize ys[i] = m at mark ⊢
  obtain ⟨x, d⟩ := m
  cases mark
  rfl

/-- A read of one word is the word at that index. -/
theorem valueAt_eq_wordAt (xs : Vector MarkedWord n) (i : Nat) : valueAt xs i = wordAt (valuesOf xs) i := by
  by_cases h : i < n <;> simp [valueAt, wordAt, h]

theorem valueAt_of_getElem? (xs : Vector MarkedWord n) (i : Nat) (c : MarkedWord) (at_i : xs[i]? = some c) :
    valueAt xs i = c.value := by
  simp [valueAt, at_i]

@[simp] theorem valueAt_definedWords (xs : Vector Word n) (i : Nat) : valueAt (definedWords xs) i = wordAt xs i := by
  rw [valueAt_eq_wordAt, valuesOf_definedWords]

@[simp] theorem isDefined_definedWords (xs : Vector Word n) (i : Nat) : isDefined (definedWords xs) i = true := by
  by_cases h : i < n <;> simp [isDefined, h]

theorem isDefined_of_set (xs : Vector MarkedWord n) (i : Nat) (set : xs[i]?.map MarkedWord.defined = some true) :
    isDefined xs i = true := by
  simp [isDefined, set]

theorem isDefined_of_clear (xs : Vector MarkedWord n) (i : Nat) (clear : xs[i]?.map MarkedWord.defined = some false) :
    isDefined xs i = false := by
  simp [isDefined, clear]

/-- No word is named exactly when every word read is defined. -/
theorem firstUndefined_eq_none_iff (bank : Bank) (xs : Vector MarkedWord n) (reads : List Nat) :
    firstUndefined bank xs reads = none ↔ ∀ i ∈ reads, isDefined xs i = true := by
  simp [firstUndefined]

@[simp] theorem firstUndefined_definedWords (bank : Bank) (xs : Vector Word n) (reads : List Nat) :
    firstUndefined bank (definedWords xs) reads = none := by
  simp [firstUndefined_eq_none_iff]

@[simp] theorem firstUndefined_nil (bank : Bank) (xs : Vector MarkedWord n) : firstUndefined bank xs [] = none := rfl

/-- The reads are taken in order (R366). -/
theorem firstUndefined_cons (bank : Bank) (xs : Vector MarkedWord n) (i : Nat) (reads : List Nat) :
    firstUndefined bank xs (i :: reads) =
      if isDefined xs i then firstUndefined bank xs reads else some ⟨bank, i⟩ := by
  cases h : isDefined xs i <;> simp [firstUndefined, h]

theorem firstUndefined_append (bank : Bank) (xs : Vector MarkedWord n) (first others : List Nat) :
    firstUndefined bank xs (first ++ others) =
      (firstUndefined bank xs first).or (firstUndefined bank xs others) := by
  induction first with
  | nil => simp
  | cons i first ih => cases h : isDefined xs i <;> simp [firstUndefined_cons, h, ih]

/-- Reading an array in increasing index names its lowest undefined word (R280, R281, R310). -/
theorem firstUndefined_range (bank : Bank) (xs : Vector MarkedWord n) (size k : Nat) (inside : k < size)
    (below : ∀ j < k, xs[j]?.map MarkedWord.defined = some true)
    (clear : xs[k]?.map MarkedWord.defined = some false) :
    firstUndefined bank xs (List.range size) = some ⟨bank, k⟩ := by
  rw [show size = k + (size - k - 1 + 1) by omega, List.range_add, firstUndefined_append,
    (firstUndefined_eq_none_iff bank xs (List.range k)).mpr
      fun j lt => isDefined_of_set xs j (below j (List.mem_range.mp lt)),
    List.range_succ_eq_map]
  simp [firstUndefined_cons, isDefined_of_clear xs k clear]

@[simp] theorem getElem?_writeWord (xs : Vector MarkedWord n) (i j : Nat) (x : Word) :
    (writeWord xs i x)[j]? = if i = j then (if i < n then some (definedWord x) else none) else xs[j]? := by
  simp [writeWord, Vector.getElem?_setIfInBounds]

/-- The words after a write of one. -/
theorem valuesOf_writeWord (xs : Vector MarkedWord n) (i : Nat) (x : Word) :
    valuesOf (writeWord xs i x) = (valuesOf xs).setIfInBounds i x := by
  apply Vector.ext
  intro j h
  simp only [writeWord, getElem_valuesOf, Vector.getElem_setIfInBounds]
  split <;> rfl

/-- A write of one word of a defined array. -/
theorem writeWord_definedWords (xs : Vector Word n) (i : Nat) (x : Word) :
    writeWord (definedWords xs) i x = definedWords (xs.setIfInBounds i x) := by
  apply Vector.ext
  intro j h
  simp only [writeWord, getElem_definedWords, Vector.getElem_setIfInBounds]
  split <;> rfl

theorem getElem?_writeBlock_low (xs : Vector MarkedWord 64) (b : Block) (j : Nat) (h : j < 16) :
    (writeBlock xs b)[j]? = (b[j]?).map definedWord := by
  have h64 : j < 64 := by omega
  simp [writeBlock, h, h64]

theorem getElem?_writeBlock_high (xs : Vector MarkedWord 64) (b : Block) (j : Nat) (h : 16 ≤ j) :
    (writeBlock xs b)[j]? = xs[j]? := by
  by_cases h64 : j < 64
  · simp [writeBlock, h64, List.getElem_append, show ¬ j < 16 by omega, show 16 + (j - 16) = j by omega]
  · simp [h64]

/-- After a reset every word is undefined (R44). -/
theorem unspecifiedWords_undefined (bank : Bank) (resets i : Nat) (h : i < n) :
    (unspecifiedWords bank n resets)[i]?.map MarkedWord.defined = some false := by
  simp [unspecifiedWords, h]

end Sys2Proof.Machine
end

