-- ==== Sys2Proof/Laws/State.lean ====
section
/-! SUPPORT. One lemma per field of each named update of State, true by unfolding, so that no later proof unfolds an update
(spec R361, R365, R366, R400). -/

namespace Sys2Proof.Machine

variable (r : Response) (s : State)

@[simp] theorem respond_h : (respond r s).h = s.h := rfl
@[simp] theorem respond_v : (respond r s).v = s.v := rfl
@[simp] theorem respond_w : (respond r s).w = s.w := rfl
@[simp] theorem respond_k : (respond r s).k = s.k := rfl
@[simp] theorem respond_iv : (respond r s).iv = s.iv := rfl
@[simp] theorem respond_err : (respond r s).err = s.err := rfl
@[simp] theorem respond_errCode : (respond r s).errCode = s.errCode := rfl
@[simp] theorem respond_errInfo : (respond r s).errInfo = s.errInfo := rfl
@[simp] theorem respond_undefinedRead : (respond r s).undefinedRead = s.undefinedRead := rfl
@[simp] theorem respond_resets : (respond r s).resets = s.resets := rfl
@[simp] theorem respond_inbox : (respond r s).inbox = s.inbox := rfl
@[simp] theorem respond_responses : (respond r s).responses = r :: s.responses := rfl

@[simp] theorem hostReset_h : (hostReset s).h = (State.afterReset (s.resets + 1)).h := rfl
@[simp] theorem hostReset_v : (hostReset s).v = (State.afterReset (s.resets + 1)).v := rfl
@[simp] theorem hostReset_w : (hostReset s).w = (State.afterReset (s.resets + 1)).w := rfl
@[simp] theorem hostReset_k : (hostReset s).k = s.k := rfl
@[simp] theorem hostReset_iv : (hostReset s).iv = s.iv := rfl
@[simp] theorem hostReset_err : (hostReset s).err = false := rfl
@[simp] theorem hostReset_errCode : (hostReset s).errCode = 0x00 := rfl
@[simp] theorem hostReset_errInfo : (hostReset s).errInfo = 0x00000000 := rfl
@[simp] theorem hostReset_undefinedRead : (hostReset s).undefinedRead = none := rfl
@[simp] theorem hostReset_resets : (hostReset s).resets = s.resets + 1 := rfl
@[simp] theorem hostReset_inbox : (hostReset s).inbox = s.inbox := rfl
@[simp] theorem hostReset_responses : (hostReset s).responses = s.responses := rfl

variable (c : ErrorCode) (cmd : Word)

@[simp] theorem recordError_h : (recordError c cmd s).h = s.h := by unfold recordError; split <;> rfl
@[simp] theorem recordError_v : (recordError c cmd s).v = s.v := by unfold recordError; split <;> rfl
@[simp] theorem recordError_w : (recordError c cmd s).w = s.w := by unfold recordError; split <;> rfl
@[simp] theorem recordError_k : (recordError c cmd s).k = s.k := by unfold recordError; split <;> rfl
@[simp] theorem recordError_iv : (recordError c cmd s).iv = s.iv := by unfold recordError; split <;> rfl
@[simp] theorem recordError_undefinedRead : (recordError c cmd s).undefinedRead = s.undefinedRead := by
  unfold recordError; split <;> rfl
@[simp] theorem recordError_resets : (recordError c cmd s).resets = s.resets := by unfold recordError; split <;> rfl
@[simp] theorem recordError_inbox : (recordError c cmd s).inbox = s.inbox := by unfold recordError; split <;> rfl
@[simp] theorem recordError_responses : (recordError c cmd s).responses = s.responses := by
  unfold recordError; split <;> rfl

/-- While ERR = 1 nothing is recorded: the first error is kept (R363). -/
theorem recordError_of_err (locked : s.err = true) : recordError c cmd s = s := by simp [recordError, locked]

/-- LOCKED is never recorded (R363). -/
@[simp] theorem recordError_locked : recordError .locked cmd s = s := by simp [recordError]

/-- The first error is recorded (R363). -/
theorem recordError_first (ok : s.err = false) (notLocked : c ≠ .locked) :
    recordError c cmd s = { s with err := true, errCode := c.code, errInfo := cmd } := by
  simp [recordError, ok, notLocked]

variable {n : Nat} (bank : Bank) (xs : Vector MarkedWord n) (reads : List Nat)

@[simp] theorem noteReads_h : (noteReads bank xs reads s).h = s.h := rfl
@[simp] theorem noteReads_v : (noteReads bank xs reads s).v = s.v := rfl
@[simp] theorem noteReads_w : (noteReads bank xs reads s).w = s.w := rfl
@[simp] theorem noteReads_k : (noteReads bank xs reads s).k = s.k := rfl
@[simp] theorem noteReads_iv : (noteReads bank xs reads s).iv = s.iv := rfl
@[simp] theorem noteReads_err : (noteReads bank xs reads s).err = s.err := rfl
@[simp] theorem noteReads_errCode : (noteReads bank xs reads s).errCode = s.errCode := rfl
@[simp] theorem noteReads_errInfo : (noteReads bank xs reads s).errInfo = s.errInfo := rfl
@[simp] theorem noteReads_resets : (noteReads bank xs reads s).resets = s.resets := rfl
@[simp] theorem noteReads_inbox : (noteReads bank xs reads s).inbox = s.inbox := rfl
@[simp] theorem noteReads_responses : (noteReads bank xs reads s).responses = s.responses := rfl
@[simp] theorem noteReads_undefinedRead :
    (noteReads bank xs reads s).undefinedRead = s.undefinedRead.or (firstUndefined bank xs reads) := rfl

/-- Reads of defined words leave no note. -/
theorem noteReads_of_defined (defined : firstUndefined bank xs reads = none) : noteReads bank xs reads s = s := by
  simp [noteReads, defined]

end Sys2Proof.Machine
end

