-- ==== Sys2Proof/Laws/Ops.lean ====
section
/-! SUPPORT. What the shared operations can do, said once: raising an error (spec R363), the checks a command makes itself
(R362 steps 1 and 5), finishing (steps 6 and 7), and the multi-step loops (R253, R282). -/

namespace Sys2Proof.Machine

theorem raiseError_locked (cmd : Word) (s : State) :
    raiseError .locked cmd s = .next { s with responses := .nak 0x05 :: s.responses } := by
  simp [raiseError, respond, ErrorCode.code]

@[simp] theorem finish_eq (t : State) (results : List Word) :
    finish (t, results) = .next (respond (.ack results) t) := rfl

theorem unlessLocked_unlocked (cmd : Word) (s : State) (effect : State × List Word) (unlocked : s.err = false) :
    unlessLocked cmd s effect = finish effect := by
  simp [unlessLocked, unlocked]

theorem unlessLocked_locked (cmd : Word) (s : State) (effect : State × List Word) (locked : s.err = true) :
    unlessLocked cmd s effect = raiseError .locked cmd s := by
  simp [unlessLocked, locked]

theorem indexed_inRange (cmd : Word) (lo hi : Nat) (arg : BitVec 8) (s : State) (effect : State × List Word)
    (unlocked : s.err = false) (low : lo ≤ arg.toNat) (high : arg.toNat ≤ hi) :
    indexed cmd lo hi arg s effect = finish effect := by
  simp [indexed, unlocked, indexInRange, indexOf, low, high]

@[simp] theorem forIndexes_nil (f : Nat → State → State) (s : State) : forIndexes f [] s = s := rfl

@[simp] theorem forIndexes_cons (f : Nat → State → State) (i : Nat) (is : List Nat) (s : State) :
    forIndexes f (i :: is) s = forIndexes f is (f i s) := rfl

/-- A loop over two lists is the loop over the first and then the loop over the second. -/
theorem forIndexes_append (f : Nat → State → State) (is js : List Nat) (s : State) :
    forIndexes f (is ++ js) s = forIndexes f js (forIndexes f is s) := by
  induction is generalizing s with
  | nil => rfl
  | cons i is ih => exact ih (f i s)

/-- A loop keeps every relation to the start that is reflexive, transitive and kept by each pass. -/
theorem forIndexes_keeps (f : Nat → State → State) (R : State → State → Prop) (refl : ∀ s, R s s)
    (trans : ∀ s t u, R s t → R t u → R s u) (pass : ∀ i s, R s (f i s)) :
    ∀ (is : List Nat) (s : State), R s (forIndexes f is s)
  | [], s => refl s
  | i :: is, s => trans _ _ _ (pass i s) (forIndexes_keeps f R refl trans pass is (f i s))

end Sys2Proof.Machine
end

