-- ==== Sys2Proof/Laws/Exec.lean ====
section
/-! SUPPORT. What `exec` can do, said once (spec R362): `exec_eq` gives every instruction the same three cases, LOCKED,
INDEX_RANGE and its own effect; `effectOf_keeps` says what an effect leaves alone, and `exec_answers` that nothing stops the
engine. Facts about all instructions follow from these without unfolding a meaning again. -/

namespace Sys2Proof.Machine

/-- Step 6 of R362: the effect of an instruction that has passed its checks. -/
def effectOf (i : Instr) (s : State) : State × List Word :=
  match i with
  | .init => ({ s with h := definedWords s.iv }, [])
  | .writeH index x => ({ s with h := writeWord s.h (indexOf index) x }, [])
  | .readH index => readEffect .H s.h (indexOf index) s
  | .writeV index x => ({ s with v := writeWord s.v (indexOf index) x }, [])
  | .readV index => readEffect .V s.v (indexOf index) s
  | .writeW index x => ({ s with w := writeWord s.w (indexOf index) x }, [])
  | .readW index => readEffect .W s.w (indexOf index) s
  | .readK index => (s, [wordAt s.k (indexOf index)])
  | .readIv index => (s, [wordAt s.iv (indexOf index)])
  | .readStatus => (s, [statusWord s])
  | .readErrinfo => (s, [s.errInfo])
  | .loadBlock block => (loadBlockUpdate block s, [])
  | .expandStep index => (expandUpdate (indexOf index) s, [])
  | .expandAll => (expandAllUpdate s, [])
  | .loadV => (loadVUpdate s, [])
  | .round index => (roundUpdate (indexOf index) s, [])
  | .roundsAll => (roundsAllUpdate s, [])
  | .accum => (accumUpdate s, [])
  | .compressBlock block => (compressUpdate block s, [])
  | .rotr amount x => (s, [rotr x (amountOf amount)])
  | .shr amount x => (s, [shr x (amountOf amount)])
  | .not x => (s, [notWord x])
  | .and x y => (s, [andWord x y])
  | .xor x y => (s, [xorWord x y])
  | .add x y => (s, [addWord x y])
  | .ch x y z => (s, [choice x y z])
  | .maj x y z => (s, [majority x y z])
  | .bsig0 x => (s, [bsig0 x])
  | .bsig1 x => (s, [bsig1 x])
  | .ssig0 x => (s, [ssig0 x])
  | .ssig1 x => (s, [ssig1 x])

/-- The command's range check and the syntax's are the same test (R105). -/
theorem indexInRange_eq (lo hi : Nat) (arg : BitVec 8) : indexInRange lo hi arg = indexWithin lo hi arg := rfl

/-- Every instruction: LOCKED, else INDEX_RANGE, else its effect (R362 steps 1, 5 and 6). -/
theorem exec_eq (i : Instr) (s : State) :
    exec i s =
      if s.err = true ∧ i ≠ .readStatus ∧ i ≠ .readErrinfo then raiseError .locked (encode i).cmd s
      else if i.wellFormed = true then finish (effectOf i s)
      else raiseError .indexRange (encode i).cmd s := by
  cases i <;> cases h : s.err <;>
    simp [exec, effectOf, encode, Instr.op, Instr.arg, Instr.wellFormed, indexInRange_eq, unlessLocked,
      indexed, h, execInit, execWriteH, execReadH, execWriteV, execReadV, execWriteW, execReadW, execReadK, execReadIv,
      execReadStatus, execReadErrinfo, execLoadBlock, execExpandStep, execExpandAll, execLoadV, execRound, execRoundsAll,
      execAccum, execCompressBlock, execRotr, execShr, execNot, execAnd, execXor, execAdd, execCh, execMaj, execBsig0,
      execBsig1, execSsig0, execSsig1, wordCommand] <;> rfl

/-- A well-formed instruction in an unlocked state is its effect. -/
theorem exec_unlocked (i : Instr) (s : State) (unlocked : s.err = false) (ok : i.wellFormed = true) :
    exec i s = finish (effectOf i s) := by
  rw [exec_eq]; simp [unlocked, ok]

/-- What no instruction's effect touches: the ROMs, the error registers, the count of resets and the port (R37, R363,
R365). -/
structure SameFixed (s t : State) : Prop where
  k : t.k = s.k
  iv : t.iv = s.iv
  err : t.err = s.err
  errCode : t.errCode = s.errCode
  errInfo : t.errInfo = s.errInfo
  resets : t.resets = s.resets
  inbox : t.inbox = s.inbox
  responses : t.responses = s.responses

theorem SameFixed.refl (s : State) : SameFixed s s := ⟨rfl, rfl, rfl, rfl, rfl, rfl, rfl, rfl⟩

theorem SameFixed.trans {s t u : State} (a : SameFixed s t) (b : SameFixed t u) : SameFixed s u :=
  ⟨b.k.trans a.k, b.iv.trans a.iv, b.err.trans a.err, b.errCode.trans a.errCode, b.errInfo.trans a.errInfo,
    b.resets.trans a.resets, b.inbox.trans a.inbox, b.responses.trans a.responses⟩

theorem expandUpdate_keeps (i : Nat) (s : State) : SameFixed s (expandUpdate i s) :=
  ⟨rfl, rfl, rfl, rfl, rfl, rfl, rfl, rfl⟩

theorem loadVUpdate_keeps (s : State) : SameFixed s (loadVUpdate s) := ⟨rfl, rfl, rfl, rfl, rfl, rfl, rfl, rfl⟩

theorem roundUpdate_keeps (i : Nat) (s : State) : SameFixed s (roundUpdate i s) :=
  ⟨rfl, rfl, rfl, rfl, rfl, rfl, rfl, rfl⟩

theorem accumUpdate_keeps (s : State) : SameFixed s (accumUpdate s) := ⟨rfl, rfl, rfl, rfl, rfl, rfl, rfl, rfl⟩

theorem expandAllUpdate_keeps (s : State) : SameFixed s (expandAllUpdate s) :=
  forIndexes_keeps expandUpdate SameFixed SameFixed.refl (fun _ _ _ => SameFixed.trans) expandUpdate_keeps _ s

theorem roundsAllUpdate_keeps (s : State) : SameFixed s (roundsAllUpdate s) :=
  forIndexes_keeps roundUpdate SameFixed SameFixed.refl (fun _ _ _ => SameFixed.trans) roundUpdate_keeps _ s

theorem compressUpdate_keeps (b : Block) (s : State) : SameFixed s (compressUpdate b s) := by
  have load : SameFixed s (loadBlockUpdate b s) := ⟨rfl, rfl, rfl, rfl, rfl, rfl, rfl, rfl⟩
  exact (((load.trans (expandAllUpdate_keeps _)).trans (loadVUpdate_keeps _)).trans (roundsAllUpdate_keeps _)).trans
    (accumUpdate_keeps _)

/-- An effect leaves the ROMs, the error registers and the port alone. -/
theorem effectOf_keeps (i : Instr) (s : State) : SameFixed s (effectOf i s).1 := by
  cases i with
  | expandAll => exact expandAllUpdate_keeps s
  | roundsAll => exact roundsAllUpdate_keeps s
  | compressBlock b => exact compressUpdate_keeps b s
  | _ => exact ⟨rfl, rfl, rfl, rfl, rfl, rfl, rfl, rfl⟩

/-- Every instruction answers a next state: none stops the engine (R365, R366). -/
theorem exec_answers (i : Instr) (s : State) : ∃ t, exec i s = .next t := by
  rw [exec_eq]
  split
  · exact ⟨_, rfl⟩
  · split <;> exact ⟨_, rfl⟩

/-- Every step answers a next state. -/
theorem step_answers (s : State) : ∃ t, step s = .next t := by
  unfold step takeAction transact
  split
  · exact ⟨_, rfl⟩
  · exact ⟨_, rfl⟩
  · split
    · exact ⟨_, rfl⟩
    · exact exec_answers _ _

/-- What an instruction does: it was locked out, or its index was out of range, or its effect was made. -/
theorem exec_next (i : Instr) (s t : State) (next : exec i s = .next t) :
    (s.err = true ∧ t = respond (.nak 0x05) s) ∨
      (i.wellFormed = false ∧ t = respond (.nak 0x04) (recordError .indexRange (encode i).cmd s)) ∨
      (i.wellFormed = true ∧ t = respond (.ack (effectOf i s).2) (effectOf i s).1) := by
  rw [exec_eq] at next
  split at next
  · next locked =>
    simp only [raiseError, recordError_locked, Host.Outcome.next.injEq] at next
    exact .inl ⟨locked.1, next.symm⟩
  · split at next
    · next ok =>
      simp only [finish, Host.Outcome.next.injEq] at next
      exact .inr (.inr ⟨ok, next.symm⟩)
    · next bad =>
      simp only [raiseError, Host.Outcome.next.injEq] at next
      exact .inr (.inl ⟨by simpa using bad, next.symm⟩)

/-- A step that answers a next state: the engine was idle, or it was reset, or it took a request, which was refused by a
check before its command or ran as its instruction (R362, R376, R400). -/
theorem step_next (s t : State) (next : step s = .next t) :
    (s.inbox = [] ∧ t = s) ∨
      (∃ rest, s.inbox = .reset :: rest ∧ t = hostReset { s with inbox := rest }) ∨
      (∃ r rest, s.inbox = .request r :: rest ∧
        ((∃ c, acceptRequest r { s with inbox := rest } = .error c ∧
            t = respond (.nak c.code) (recordError c r.cmd { s with inbox := rest })) ∨
          ∃ i, acceptRequest r { s with inbox := rest } = .ok i ∧ exec i { s with inbox := rest } = .next t)) := by
  cases waiting : s.inbox with
  | nil =>
    simp only [step, takeAction, waiting, Host.Outcome.next.injEq] at next
    exact .inl ⟨rfl, next.symm⟩
  | cons a rest =>
    cases a with
    | reset =>
      simp only [step, takeAction, waiting, Host.Outcome.next.injEq] at next
      exact .inr (.inl ⟨rest, rfl, next.symm⟩)
    | request r =>
      simp only [step, takeAction, waiting, transact] at next
      refine .inr (.inr ⟨r, rest, rfl, ?_⟩)
      cases checked : acceptRequest r { s with inbox := rest } with
      | error c =>
        simp only [checked, raiseError, Host.Outcome.next.injEq] at next
        exact .inl ⟨c, rfl, next.symm⟩
      | ok i =>
        simp only [checked] at next
        exact .inr ⟨i, rfl, next⟩

end Sys2Proof.Machine
end

