-- ==== Sys2Proof/Laws/HostSide.lean ====
section
/-! SUPPORT. What the host's operations do: cutting into pieces, the lengths of the padding, and issuing requests. -/

namespace Sys2Proof.HostSide

open Sys2Proof.Machine

@[simp] theorem pieces_length {α : Type} (size count : Nat) (xs : List α) : (pieces size count xs).length = count := by
  induction count generalizing xs with
  | zero => rfl
  | succ count ih => simp [pieces, ih]

/-- Where the sequence has all the pieces asked for, each is whole. -/
theorem length_of_mem_pieces {α : Type} {size count : Nat} {xs : List α} (enough : size * count ≤ xs.length) :
    ∀ p ∈ pieces size count xs, p.length = size := by
  induction count generalizing xs with
  | zero => simp [pieces]
  | succ count ih =>
    rw [Nat.mul_succ] at enough
    simp only [pieces, List.mem_cons, forall_eq_or_imp]
    exact ⟨by simp; omega, ih (by simp; omega)⟩

/-- Cutting a sequence that the pieces fill loses nothing and keeps the order (R333). -/
theorem pieces_flatten {α : Type} {size count : Nat} {xs : List α} (exact_fit : size * count = xs.length) :
    (pieces size count xs).flatten = xs := by
  induction count generalizing xs with
  | zero => simpa [pieces, eq_comm] using exact_fit
  | succ count ih =>
    rw [Nat.mul_succ] at exact_fit
    rw [pieces, List.flatten_cons, ih (by simp; omega), List.take_append_drop]

theorem messageBits_length (message : List Byte) : (messageBits message).length = 8 * message.length := by
  induction message with
  | nil => rfl
  | cons b message ih => rw [messageBits, List.flatMap_cons, List.length_append, ← messageBits, ih]; simp [byteBits]; omega

/-- R331: L + 1 + k + 64. -/
theorem padBits_length (bits : List Bool) : (padBits bits).length = bits.length + 1 + zeroBits bits.length + 64 := by
  simp [padBits, natBits, Config.lengthFieldBits]; omega

@[simp] theorem ackResults_respond_ack (results : List Word) (s : State) :
    ackResults (respond (.ack results) s) = some results := rfl

@[simp] theorem ackResults_respond_nak (code : BitVec 8) (s : State) : ackResults (respond (.nak code) s) = none := rfl

/-- A request answered by ACK hands its results on. -/
theorem issue_of_ack {r : Request} {rs : List Request} {results words : List Word} {s t : State}
    (runs : transact r s = .next t) (acked : ackResults t = some words) :
    issue (r :: rs) results s = issue rs (results ++ words) t := by
  simp only [issue, runs, acked]

/-- Requests that all answer ACK may be issued first and the others after them. -/
theorem issue_append {first : List Request} (others : List Request) {results words : List Word} {s t : State}
    (acked : issue first results s = .next (some words, t)) :
    issue (first ++ others) results s = issue others words t := by
  induction first generalizing results s with
  | nil => cases acked; rfl
  | cons r rs ih =>
    simp only [List.cons_append, issue] at acked ⊢
    split at acked
    · split at acked
      · exact ih acked
      · cases acked
    · cases acked
    · cases acked

end Sys2Proof.HostSide
end

