-- ==== Sys2Proof/Laws/PerInstr.lean ====
section
/-! SUPPORT. A law of every instruction as syntax: what its encoding passes (spec R101, R103, R105, R107). `encodes_of` is
the one proof; each constructor gives its row of the opcode map. -/

namespace Sys2Proof.Laws

open Sys2Proof

/-- The encoded request selects a row of R105 by its OP, carries the instruction's own ARG, has no reserved bit set and as
many operand words as the row asks for, and its index check is the instruction's well-formedness. -/
def Encodes.Statement (i : Instr) : Prop :=
  ∃ row, rowOf (opField (encode i).cmd) = some row ∧ argField (encode i).cmd = i.arg ∧
    reservedBitsSet row.format (encode i).cmd = false ∧ (encode i).ops.length = row.operands ∧
    ((row.format = .cmdI → indexWithin row.lo row.hi i.arg = true) ↔ i.wellFormed = true)

/-- The facts of one row that make the statement. -/
theorem encodes_of (i : Instr) (row : Row) (found : rowOf i.op = some row)
    (clean : reservedBitsSet row.format (cmdWord i.op i.arg) = false) (count : i.operands.length = row.operands)
    (range : (row.format = .cmdI → indexWithin row.lo row.hi i.arg = true) ↔ i.wellFormed = true) :
    Encodes.Statement i :=
  ⟨row, by rw [encode, opField_cmdWord, found], by rw [encode, argField_cmdWord], clean, count, range⟩

/-- No reserved bit is set in a CMD-N word with ARG 0. -/
theorem clean_cmdN (op : BitVec 8) : reservedBitsSet .cmdN (cmdWord op 0) = false := by simp [reservedBitsSet]

/-- No reserved bit is set in a CMD-I word, whatever its index. -/
theorem clean_cmdI (op arg : BitVec 8) : reservedBitsSet .cmdI (cmdWord op arg) = false := by simp [reservedBitsSet]

/-- No reserved bit is set in a CMD-A word whose ARG is an amount zero-extended. -/
theorem clean_cmdA (op : BitVec 8) (n : BitVec 5) : reservedBitsSet .cmdA (cmdWord op (n.setWidth 8)) = false := by
  simp [reservedBitsSet]

/-- A row of format CMD-I whose range is the instruction's. -/
theorem range_cmdI (lo hi : Nat) (arg : BitVec 8) :
    (Format.cmdI = .cmdI → indexWithin lo hi arg = true) ↔ indexWithin lo hi arg = true := by simp

theorem Encodes.init : Encodes.Statement (.init) :=
  encodes_of _ _ rfl (clean_cmdN _) rfl (by simp [Instr.wellFormed])

theorem Encodes.writeH (index : BitVec 8) (x : Word) : Encodes.Statement (.writeH index x) :=
  encodes_of _ _ rfl (clean_cmdI _ _) rfl (range_cmdI _ _ _)

theorem Encodes.readH (index : BitVec 8) : Encodes.Statement (.readH index) :=
  encodes_of _ _ rfl (clean_cmdI _ _) rfl (range_cmdI _ _ _)

theorem Encodes.writeV (index : BitVec 8) (x : Word) : Encodes.Statement (.writeV index x) :=
  encodes_of _ _ rfl (clean_cmdI _ _) rfl (range_cmdI _ _ _)

theorem Encodes.readV (index : BitVec 8) : Encodes.Statement (.readV index) :=
  encodes_of _ _ rfl (clean_cmdI _ _) rfl (range_cmdI _ _ _)

theorem Encodes.writeW (index : BitVec 8) (x : Word) : Encodes.Statement (.writeW index x) :=
  encodes_of _ _ rfl (clean_cmdI _ _) rfl (range_cmdI _ _ _)

theorem Encodes.readW (index : BitVec 8) : Encodes.Statement (.readW index) :=
  encodes_of _ _ rfl (clean_cmdI _ _) rfl (range_cmdI _ _ _)

theorem Encodes.readK (index : BitVec 8) : Encodes.Statement (.readK index) :=
  encodes_of _ _ rfl (clean_cmdI _ _) rfl (range_cmdI _ _ _)

theorem Encodes.readIv (index : BitVec 8) : Encodes.Statement (.readIv index) :=
  encodes_of _ _ rfl (clean_cmdI _ _) rfl (range_cmdI _ _ _)

theorem Encodes.readStatus : Encodes.Statement (.readStatus) :=
  encodes_of _ _ rfl (clean_cmdN _) rfl (by simp [Instr.wellFormed])

theorem Encodes.readErrinfo : Encodes.Statement (.readErrinfo) :=
  encodes_of _ _ rfl (clean_cmdN _) rfl (by simp [Instr.wellFormed])

theorem Encodes.loadBlock (block : Block) : Encodes.Statement (.loadBlock block) :=
  encodes_of _ _ rfl (clean_cmdN _) (by simp [Instr.operands]) (by simp [Instr.wellFormed])

theorem Encodes.expandStep (index : BitVec 8) : Encodes.Statement (.expandStep index) :=
  encodes_of _ _ rfl (clean_cmdI _ _) rfl (range_cmdI _ _ _)

theorem Encodes.expandAll : Encodes.Statement (.expandAll) :=
  encodes_of _ _ rfl (clean_cmdN _) rfl (by simp [Instr.wellFormed])

theorem Encodes.loadV : Encodes.Statement (.loadV) :=
  encodes_of _ _ rfl (clean_cmdN _) rfl (by simp [Instr.wellFormed])

theorem Encodes.round (index : BitVec 8) : Encodes.Statement (.round index) :=
  encodes_of _ _ rfl (clean_cmdI _ _) rfl (range_cmdI _ _ _)

theorem Encodes.roundsAll : Encodes.Statement (.roundsAll) :=
  encodes_of _ _ rfl (clean_cmdN _) rfl (by simp [Instr.wellFormed])

theorem Encodes.accum : Encodes.Statement (.accum) :=
  encodes_of _ _ rfl (clean_cmdN _) rfl (by simp [Instr.wellFormed])

theorem Encodes.compressBlock (block : Block) : Encodes.Statement (.compressBlock block) :=
  encodes_of _ _ rfl (clean_cmdN _) (by simp [Instr.operands]) (by simp [Instr.wellFormed])

theorem Encodes.rotr (amount : BitVec 5) (x : Word) : Encodes.Statement (.rotr amount x) :=
  encodes_of _ _ rfl (clean_cmdA _ _) rfl (by simp [Instr.wellFormed])

theorem Encodes.shr (amount : BitVec 5) (x : Word) : Encodes.Statement (.shr amount x) :=
  encodes_of _ _ rfl (clean_cmdA _ _) rfl (by simp [Instr.wellFormed])

theorem Encodes.not (x : Word) : Encodes.Statement (.not x) :=
  encodes_of _ _ rfl (clean_cmdN _) rfl (by simp [Instr.wellFormed])

theorem Encodes.and (x y : Word) : Encodes.Statement (.and x y) :=
  encodes_of _ _ rfl (clean_cmdN _) rfl (by simp [Instr.wellFormed])

theorem Encodes.xor (x y : Word) : Encodes.Statement (.xor x y) :=
  encodes_of _ _ rfl (clean_cmdN _) rfl (by simp [Instr.wellFormed])

theorem Encodes.add (x y : Word) : Encodes.Statement (.add x y) :=
  encodes_of _ _ rfl (clean_cmdN _) rfl (by simp [Instr.wellFormed])

theorem Encodes.ch (x y z : Word) : Encodes.Statement (.ch x y z) :=
  encodes_of _ _ rfl (clean_cmdN _) rfl (by simp [Instr.wellFormed])

theorem Encodes.maj (x y z : Word) : Encodes.Statement (.maj x y z) :=
  encodes_of _ _ rfl (clean_cmdN _) rfl (by simp [Instr.wellFormed])

theorem Encodes.bsig0 (x : Word) : Encodes.Statement (.bsig0 x) :=
  encodes_of _ _ rfl (clean_cmdN _) rfl (by simp [Instr.wellFormed])

theorem Encodes.bsig1 (x : Word) : Encodes.Statement (.bsig1 x) :=
  encodes_of _ _ rfl (clean_cmdN _) rfl (by simp [Instr.wellFormed])

theorem Encodes.ssig0 (x : Word) : Encodes.Statement (.ssig0 x) :=
  encodes_of _ _ rfl (clean_cmdN _) rfl (by simp [Instr.wellFormed])

theorem Encodes.ssig1 (x : Word) : Encodes.Statement (.ssig1 x) :=
  encodes_of _ _ rfl (clean_cmdN _) rfl (by simp [Instr.wellFormed])

end Sys2Proof.Laws
end

