-- ==== Sys2Proof/Machine/Assembler.lean ====
section
/-! DEFINITION. The assembler syntax of spec R110, one line of text to one request, and the pseudo-instructions of R111, one
line to several. It is a host tool; no step calls it. A line whose numbers do not fit their field or whose operand count is
wrong is refused (`none`). Where the comma stands is log entry 4. -/

namespace Sys2Proof.Assembler

/-- A piece of a line: a run of letters, digits and underscores, or a comma. -/
inductive Token where
  | text (cs : List Char)
  | comma
  deriving DecidableEq, Repr

/-- End the run of characters read so far (held in reverse). -/
def closeRun (run : List Char) (tokens : List Token) : List Token :=
  match run with
  | [] => tokens
  | _ => .text run.reverse :: tokens

/-- The tokens of a line up to its comment, the last one first; `none` on a character no token has. -/
def scan : List Char → List Char → List Token → Option (List Token)
  | [], run, tokens => some (closeRun run tokens)
  | c :: cs, run, tokens =>
    if c = ';' then some (closeRun run tokens)
    else if c = ',' then scan cs [] (.comma :: closeRun run tokens)
    else if c = ' ' ∨ c = '\t' then scan cs [] (closeRun run tokens)
    else if c.isAlphanum ∨ c = '_' then scan cs (c :: run) tokens
    else none

/-- The tokens of a line, in order. -/
def tokensOf (line : String) : Option (List Token) := (scan line.toList [] []).map List.reverse

/-- The value of one digit in base 16 or 10. -/
def digitOf (c : Char) : Option Nat :=
  if '0' ≤ c ∧ c ≤ '9' then some (c.toNat - '0'.toNat)
  else if 'a' ≤ c ∧ c ≤ 'f' then some (c.toNat - 'a'.toNat + 10)
  else if 'A' ≤ c ∧ c ≤ 'F' then some (c.toNat - 'A'.toNat + 10)
  else none

/-- The digits of a number in base `base`, after `acc`. -/
def digits (base : Nat) : List Char → Nat → Option Nat
  | [], acc => some acc
  | c :: cs, acc =>
    match digitOf c with
    | some d => if d < base then digits base cs (base * acc + d) else none
    | none => none

/-- number := decimal | "0x" hex-digits (R110). -/
def number (cs : List Char) : Option Nat :=
  match cs with
  | [] => none
  | '0' :: 'x' :: hex => if hex = [] then none else digits 16 hex 0
  | _ => digits 10 cs 0

/-- The numbers of a list separated by single commas; an empty list has none. -/
def numbers : List Token → Option (List Nat)
  | [] => some []
  | [.text cs] => (number cs).map fun n => [n]
  | .text cs :: .comma :: rest =>
    match number cs, rest, numbers rest with
    | some n, _ :: _, some ns => some (n :: ns)
    | _, _, _ => none
  | _ => none

/-- The row of a mnemonic, which is case-insensitive (R110). -/
def rowNamed (cs : List Char) : Option Row :=
  opcodeTable.find? fun r => r.mnemonic.toList == cs.map Char.toUpper

/-- A number that fits a field of `bits` bits (R110). -/
def fits (bits n : Nat) : Bool := decide (n < 2 ^ bits)

/-- The ARG and the operand numbers of a command: in CMD-I and CMD-A the first number is ARG; it must fit the 8-bit index
or the 5-bit amount (R110). -/
def splitArg (format : Format) (ns : List Nat) : Option (Nat × List Nat) :=
  match format, ns with
  | .cmdN, _ => some (0, ns)
  | .cmdI, n :: rest => if fits 8 n then some (n, rest) else none
  | .cmdA, n :: rest => if fits 5 n then some (n, rest) else none
  | _, [] => none

/-- The request of one line (R110). -/
def assembleLine (line : String) : Option Request :=
  match tokensOf line with
  | some (.text name :: rest) =>
    match rowNamed name, numbers rest with
    | some row, some ns =>
      match splitArg row.format ns with
      | some (arg, ops) =>
        if ops.length = row.operands ∧ ops.all (fits 32) then
          some ⟨cmdWord row.op (BitVec.ofNat 8 arg), ops.map (BitVec.ofNat 32)⟩
        else none
      | none => none
    | _, _ => none
  | _ => none

/-- The requests of a pseudo-instruction, if its operand count is right (R111). -/
def pseudo (name : List Char) (words : List Word) : Option (List Request) :=
  let upper := name.map Char.toUpper
  let count := words.length
  if upper = "READ_STATE".toList ∧ count = 0 then some HostSide.readState
  else if upper = "RESTORE_STATE".toList ∧ count = 8 then some (HostSide.restoreState words)
  else if upper = "BLOCK_STEPWISE".toList ∧ count = 16 then some (HostSide.blockStepwise words)
  else if upper = "ROUNDS_STEPWISE".toList ∧ count = 0 then some HostSide.roundsStepwise
  else if upper = "EXPAND_STEPWISE".toList ∧ count = 0 then some HostSide.expandStepwise
  else none

/-- The requests of one line, a command or a pseudo-instruction (R110, R111). -/
def assemble (line : String) : Option (List Request) :=
  match assembleLine line with
  | some r => some [r]
  | none =>
    match tokensOf line with
    | some (.text name :: rest) =>
      match numbers rest with
      | some ns => if ns.all (fits 32) then pseudo name (ns.map (BitVec.ofNat 32)) else none
      | none => none
    | _ => none

end Sys2Proof.Assembler
end

