-- ==== Sys2Proof/Tests/Slice0.lean ====
section
/-! SUPPORT. The model's own tests. Expected values come from the spec: the encodings of R101 and R105, and the vectors of
95_test_vectors.md (its section is named beside each group). Then the witnesses: for each obligation with hypotheses a
concrete state and operands that meet them. -/

namespace Sys2Proof.Tests

open Sys2Proof Sys2Proof.Machine Sys2Proof.Safety Sys2Proof.HostSide

/-! ## Helpers -/

/-- `s` with one request waiting. -/
def asked (s : State) (cmd : Word) (ops : List Word) : State := { s with inbox := [.request ⟨cmd, ops⟩] }

/-- The latest response of an outcome. -/
def answer (o : StepOutcome) : Option Response :=
  match o with
  | .next t => t.responses.head?
  | _ => none

/-- The response to one request. -/
def reply (s : State) (cmd : Word) (ops : List Word) : Option Response := answer (step (asked s cmd ops))

/-- A field of the state after one request. -/
def after {α : Type} (s : State) (cmd : Word) (ops : List Word) (field : State → α) : Option α :=
  match step (asked s cmd ops) with
  | .next t => some (field t)
  | _ => none

/-- The UndefinedRead with which one request stops the spec's model (R366). -/
def faultOf (s : State) (cmd : Word) (ops : List Word) : Option UndefinedRead :=
  match modelStep (asked s cmd ops) with
  | .fault f => some f
  | _ => none

/-- An undefined word that happens to hold 0. -/
def unwritten : MarkedWord := ⟨0x00000000, false⟩

/-- The state after reset on a part whose undefined words all hold 0 (the values are free, log entry 1). -/
def blank : State :=
  { State.reset with
    h := Vector.replicate 8 unwritten
    v := Vector.replicate 8 unwritten
    w := Vector.replicate 64 unwritten }

/-- The state after INIT (R200). -/
def initialised : State := { blank with h := definedWords romIv }

/-- H, V and W all defined: H = V = IV, every W word 0. -/
def filled : State :=
  { blank with
    h := definedWords romIv
    v := definedWords romIv
    w := definedWords (Vector.replicate 64 0x00000000) }

/-- W[0..15] defined and 0, all else undefined. -/
def zeroBlock : State :=
  { blank with w := ⟨⟨List.replicate 16 (definedWord 0) ++ List.replicate 48 unwritten⟩, rfl⟩ }

/-- The state after a request whose command word was 0 (95, section 2.6). -/
def locked : State := { blank with err := true, errCode := 0x01, errInfo := 0x00000000 }

/-- The "abc" block (95, section 1.2). -/
def abcBlock : Block := #v[0x61626380, 0, 0, 0, 0, 0, 0, 0, 0, 0, 0, 0, 0, 0, 0, 0x18]

/-! ## Well-formedness: an ill-formed term for each check of R105, and a well-formed one at each bound -/

theorem test_illformed_writeH : (Instr.writeH 8 1).wellFormed = false ∧
    (Instr.writeH 0 1).wellFormed = true ∧ (Instr.writeH 7 1).wellFormed = true := by decide

theorem test_illformed_readH : (Instr.readH 8).wellFormed = false ∧
    (Instr.readH 0).wellFormed = true ∧ (Instr.readH 7).wellFormed = true := by decide

theorem test_illformed_writeV : (Instr.writeV 8 1).wellFormed = false ∧
    (Instr.writeV 0 1).wellFormed = true ∧ (Instr.writeV 7 1).wellFormed = true := by decide

theorem test_illformed_readV : (Instr.readV 8).wellFormed = false ∧
    (Instr.readV 0).wellFormed = true ∧ (Instr.readV 7).wellFormed = true := by decide

theorem test_illformed_writeW : (Instr.writeW 64 1).wellFormed = false ∧
    (Instr.writeW 0 1).wellFormed = true ∧ (Instr.writeW 63 1).wellFormed = true := by decide

theorem test_illformed_readW : (Instr.readW 64).wellFormed = false ∧
    (Instr.readW 0).wellFormed = true ∧ (Instr.readW 63).wellFormed = true := by decide

theorem test_illformed_readK : (Instr.readK 64).wellFormed = false ∧
    (Instr.readK 0).wellFormed = true ∧ (Instr.readK 63).wellFormed = true := by decide

theorem test_illformed_readIv : (Instr.readIv 8).wellFormed = false ∧
    (Instr.readIv 0).wellFormed = true ∧ (Instr.readIv 7).wellFormed = true := by decide

theorem test_illformed_expandStep : (Instr.expandStep 64).wellFormed = false ∧ (Instr.expandStep 15).wellFormed = false ∧
    (Instr.expandStep 16).wellFormed = true ∧ (Instr.expandStep 63).wellFormed = true := by decide

theorem test_illformed_round : (Instr.round 64).wellFormed = false ∧
    (Instr.round 0).wellFormed = true ∧ (Instr.round 63).wellFormed = true := by decide

/-! ## Decoding: one word of every constructor, written out from R101 and R105 -/

theorem test_decode_init : decode ⟨0x01000000, []⟩ = .ok (.init) := by decide

theorem test_decode_writeH : decode ⟨0x02000003, [0xDEADBEEF]⟩ = .ok (.writeH 3 0xDEADBEEF) := by decide

theorem test_decode_readH : decode ⟨0x03000007, []⟩ = .ok (.readH 7) := by decide

theorem test_decode_writeV : decode ⟨0x04000004, [0x00000001]⟩ = .ok (.writeV 4 0x00000001) := by decide

theorem test_decode_readV : decode ⟨0x05000002, []⟩ = .ok (.readV 2) := by decide

theorem test_decode_writeW : decode ⟨0x0600003F, [0xFFFFFFFF]⟩ = .ok (.writeW 63 0xFFFFFFFF) := by decide

theorem test_decode_readW : decode ⟨0x07000028, []⟩ = .ok (.readW 40) := by decide

theorem test_decode_readK : decode ⟨0x0800003F, []⟩ = .ok (.readK 63) := by decide

theorem test_decode_readIv : decode ⟨0x09000007, []⟩ = .ok (.readIv 7) := by decide

theorem test_decode_readStatus : decode ⟨0x0A000000, []⟩ = .ok (.readStatus) := by decide

theorem test_decode_readErrinfo : decode ⟨0x0B000000, []⟩ = .ok (.readErrinfo) := by decide

theorem test_decode_loadBlock :
    decode ⟨0x10000000, [0, 1, 2, 3, 4, 5, 6, 7, 8, 9, 10, 11, 12, 13, 14, 15]⟩ =
      .ok (.loadBlock #v[0, 1, 2, 3, 4, 5, 6, 7, 8, 9, 10, 11, 12, 13, 14, 15]) := by decide

theorem test_decode_expandStep : decode ⟨0x11000012, []⟩ = .ok (.expandStep 18) := by decide

theorem test_decode_expandAll : decode ⟨0x12000000, []⟩ = .ok (.expandAll) := by decide

theorem test_decode_loadV : decode ⟨0x20000000, []⟩ = .ok (.loadV) := by decide

theorem test_decode_round : decode ⟨0x2100003F, []⟩ = .ok (.round 63) := by decide

theorem test_decode_roundsAll : decode ⟨0x22000000, []⟩ = .ok (.roundsAll) := by decide

theorem test_decode_accum : decode ⟨0x30000000, []⟩ = .ok (.accum) := by decide

theorem test_decode_compressBlock :
    decode ⟨0x31000000, [0x61626380, 0, 0, 0, 0, 0, 0, 0, 0, 0, 0, 0, 0, 0, 0, 0x18]⟩ =
      .ok (.compressBlock abcBlock) := by decide

theorem test_decode_rotr : decode ⟨0x4000001F, [0x12345678]⟩ = .ok (.rotr 31 0x12345678) := by decide

theorem test_decode_shr : decode ⟨0x41000003, [0x80000000]⟩ = .ok (.shr 3 0x80000000) := by decide

theorem test_decode_not : decode ⟨0x42000000, [0x00000001]⟩ = .ok (.not 0x00000001) := by decide

theorem test_decode_and :
    decode ⟨0x43000000, [0x80000000, 0x00000001]⟩ =
      .ok (.and 0x80000000 0x00000001) := by decide

theorem test_decode_xor :
    decode ⟨0x44000000, [0x80000000, 0x00000001]⟩ =
      .ok (.xor 0x80000000 0x00000001) := by decide

theorem test_decode_add :
    decode ⟨0x45000000, [0x80000000, 0x00000001]⟩ =
      .ok (.add 0x80000000 0x00000001) := by decide

theorem test_decode_ch :
    decode ⟨0x46000000, [0xFFFFFFFF, 0x12345678, 0x9ABCDEF0]⟩ =
      .ok (.ch 0xFFFFFFFF 0x12345678 0x9ABCDEF0) := by decide

theorem test_decode_maj :
    decode ⟨0x47000000, [0xFFFFFFFF, 0x12345678, 0x9ABCDEF0]⟩ =
      .ok (.maj 0xFFFFFFFF 0x12345678 0x9ABCDEF0) := by decide

theorem test_decode_bsig0 : decode ⟨0x48000000, [0x6A09E667]⟩ = .ok (.bsig0 0x6A09E667) := by decide

theorem test_decode_bsig1 : decode ⟨0x49000000, [0x510E527F]⟩ = .ok (.bsig1 0x510E527F) := by decide

theorem test_decode_ssig0 : decode ⟨0x4A000000, [0xFFFFFFFF]⟩ = .ok (.ssig0 0xFFFFFFFF) := by decide

theorem test_decode_ssig1 : decode ⟨0x4B000000, [0x61626380]⟩ = .ok (.ssig1 0x61626380) := by decide

/-- R106, R107, R103: encodings that are refused, by name; the last has a wrong count and a wrong index, and the count is
checked first (95, section 2.6). -/
theorem test_decode_refuses :
    decode ⟨0x00000000, []⟩ = .error .illegalOpcode ∧ decode ⟨0xFF0000FF, []⟩ = .error .illegalOpcode ∧
      decode ⟨0x4C000000, []⟩ = .error .illegalOpcode ∧ decode ⟨0x01000001, []⟩ = .error .reservedBits ∧
      decode ⟨0x01000100, []⟩ = .error .reservedBits ∧ decode ⟨0x40000020, [1]⟩ = .error .reservedBits ∧
      decode ⟨0x40000001, []⟩ = .error .operandCount ∧
      decode ⟨0x10000000, List.replicate 15 0⟩ = .error .operandCount ∧
      decode ⟨0x02000009, []⟩ = .error .operandCount := by decide

/-- R109: the classification of a command word alone. -/
theorem test_classify :
    classify 0x00000000 = .illegal ∧ classify 0x03000100 = .reservedBits ∧ classify 0x03000008 = .indexRange ∧
      classify 0x1100000F = .indexRange ∧ classify 0x40000020 = .reservedBits ∧
      classify 0x0700003F = .command 0x07 0x3F := by decide

/-- The table's word of COMPRESS_BLOCK takes 16 operand words of zeros. -/
theorem test_decodeTableWord :
    decodeTableWord 32 0x31000000 = some (.compressBlock (Vector.replicate 16 0)) ∧
      decodeTableWord 32 0x11000010 = some (.expandStep 16) ∧
      decodeTableWord 64 0x1234567840000007 = some (.rotr 7 0x12345678) ∧ decodeTableWord 32 0x4C000000 = none := by decide

/-! ## Word operations (95, section 2.1), all in the state after reset, which they need nothing of -/

theorem test_rotr : reply State.reset 0x40000007 [0x12345678] = some (.ack [0xF02468AC]) := by decide

theorem test_rotr_zero : reply State.reset 0x40000000 [0x12345678] = some (.ack [0x12345678]) := by decide

theorem test_shr : reply State.reset 0x4100001F [0xFFFFFFFF] = some (.ack [0x00000001]) := by decide

theorem test_shr_zero : reply State.reset 0x41000000 [0x6A09E667] = some (.ack [0x6A09E667]) := by decide

theorem test_not : reply State.reset 0x42000000 [0x00000000] = some (.ack [0xFFFFFFFF]) := by decide

theorem test_and : reply State.reset 0x43000000 [0x12345678, 0x9ABCDEF0] = some (.ack [0x12345670]) := by decide

theorem test_xor : reply State.reset 0x44000000 [0x12345678, 0x9ABCDEF0] = some (.ack [0x88888888]) := by decide

theorem test_add : reply State.reset 0x45000000 [0xFFFFFFFF, 0x00000001] = some (.ack [0x00000000]) := by decide

theorem test_ch :
    reply State.reset 0x46000000 [0xF0F0F0F0, 0xCCCCCCCC, 0xAAAAAAAA] = some (.ack [0xCACACACA]) := by decide

theorem test_maj :
    reply State.reset 0x47000000 [0xF0F0F0F0, 0xCCCCCCCC, 0xAAAAAAAA] = some (.ack [0xE8E8E8E8]) := by decide

theorem test_bsig0 : reply State.reset 0x48000000 [0x6A09E667] = some (.ack [0xCE20B47E]) := by decide

theorem test_bsig1 : reply State.reset 0x49000000 [0x12345678] = some (.ack [0x3561ABDA]) := by decide

theorem test_ssig0 : reply State.reset 0x4A000000 [0x61626380] = some (.ack [0x940E90EF]) := by decide

theorem test_ssig0_shifts : reply State.reset 0x4A000000 [0xFFFFFFFF] = some (.ack [0x1FFFFFFF]) := by decide

theorem test_ssig1 : reply State.reset 0x4B000000 [0x12345678] = some (.ack [0xA1F78649]) := by decide

theorem test_ssig1_shifts : reply State.reset 0x4B000000 [0xFFFFFFFF] = some (.ack [0x003FFFFF]) := by decide

/-! ## Initialisation and state access (95, section 2.2) -/

theorem test_init :
    after blank 0x01000000 [] (fun t => (t.h, t.v, t.err)) =
      some (definedWords romIv, blank.v, false) := by decide

theorem test_writeH :
    after blank 0x02000003 [0xDEADBEEF] (fun t => (t.h[3], t.h[2])) =
      some (⟨0xDEADBEEF, true⟩, unwritten) := by decide

theorem test_readH : reply initialised 0x03000007 [] = some (.ack [0x5BE0CD19]) := by decide

theorem test_readH_undefined : faultOf State.reset 0x03000000 [] = some ⟨.H, 0⟩ := by decide

/-- R366: the engine itself goes on with what the word holds, and the note stays until a reset. -/
theorem test_readH_goes_on :
    after { blank with h := Vector.replicate 8 ⟨0x12345678, false⟩ } 0x03000005 []
        (fun t => (t.responses, t.undefinedRead)) = some ([.ack [0x12345678]], some ⟨.H, 5⟩) ∧
      after { blank with undefinedRead := some ⟨.W, 3⟩ } 0x03000005 [] (fun t => t.undefinedRead) = some (some ⟨.W, 3⟩) ∧
      (hostReset { blank with undefinedRead := some ⟨.W, 3⟩ }).undefinedRead = none := by decide

theorem test_writeV :
    after filled 0x04000004 [0x00000001] (fun t => (t.v[4].value, t.v[3].value)) =
      some (0x00000001, 0xA54FF53A) := by decide

theorem test_readV : reply filled 0x05000004 [] = some (.ack [0x510E527F]) := by decide

theorem test_readV_undefined : faultOf State.reset 0x05000002 [] = some ⟨.V, 2⟩ := by decide

theorem test_writeW :
    after blank 0x0600003F [0xFFFFFFFF] (fun t => (t.w[63], t.w[62])) =
      some (⟨0xFFFFFFFF, true⟩, unwritten) := by decide

theorem test_readW : reply zeroBlock 0x0700000F [] = some (.ack [0x00000000]) := by decide

theorem test_readW_undefined : faultOf State.reset 0x07000028 [] = some ⟨.W, 40⟩ := by decide

theorem test_readK : reply State.reset 0x08000000 [] = some (.ack [0x428A2F98]) := by decide

theorem test_readK_last : reply State.reset 0x0800003F [] = some (.ack [0xC67178F2]) := by decide

theorem test_readIv : reply State.reset 0x09000000 [] = some (.ack [0x6A09E667]) := by decide

theorem test_readIv_last : reply State.reset 0x09000007 [] = some (.ack [0x5BE0CD19]) := by decide

theorem test_readStatus : reply State.reset 0x0A000000 [] = some (.ack [0x00000000]) := by decide

theorem test_readErrinfo : reply State.reset 0x0B000000 [] = some (.ack [0x00000000]) := by decide

/-! ## Schedule, rounds, accumulator (95, sections 2.3 to 2.5) -/

theorem test_loadBlock :
    after filled 0x10000000 [0, 1, 2, 3, 4, 5, 6, 7, 8, 9, 10, 11, 12, 13, 14, 15]
      (fun t => (t.w[0].value, t.w[15].value, t.w[16].value)) = some (0, 15, 0) := by decide

/-- 0, 1, ..., 15 in W[0..15]: EXPAND_STEP 16 gives 02070009. -/
theorem test_expandStep :
    after { blank with w := writeBlock blank.w #v[0, 1, 2, 3, 4, 5, 6, 7, 8, 9, 10, 11, 12, 13, 14, 15] }
      0x11000010 [] (fun t => (t.w[16], t.w[17])) = some (⟨0x02070009, true⟩, unwritten) := by decide

/-- Program P7: EXPAND_STEP 18 before EXPAND_STEP 16. -/
theorem test_expandStep_undefined : faultOf zeroBlock 0x11000012 [] = some ⟨.W, 16⟩ := by decide

theorem test_expandAll :
    after { blank with w := writeBlock blank.w abcBlock } 0x12000000 []
      (fun t => [t.w[16].value, t.w[17].value, t.w[18].value, t.w[32].value, t.w[63].value]) =
      some [0x61626380, 0x000F0000, 0x7DA86405, 0x93F5997F, 0x12B1EDEB] := by decide +kernel

theorem test_expandAll_undefined : faultOf State.reset 0x12000000 [] = some ⟨.W, 0⟩ := by decide

theorem test_loadV : after initialised 0x20000000 [] (fun t => t.v) = some (definedWords romIv) := by decide

theorem test_loadV_undefined : faultOf State.reset 0x20000000 [] = some ⟨.H, 0⟩ := by decide

/-- V = IV and W[0] = 0. -/
theorem test_round :
    after filled 0x21000000 [] (fun t => t.v) =
      some (definedWords #v[0xFC08884D, 0x6A09E667, 0xBB67AE85, 0x3C6EF372, 0x98C7E2A2, 0x510E527F, 0x9B05688C,
        0x1F83D9AB]) := by decide +kernel

/-- V and W all ones, the last round constant. -/
theorem test_round_last :
    after { filled with
        v := definedWords (Vector.replicate 8 0xFFFFFFFF)
        w := definedWords (Vector.replicate 64 0xFFFFFFFF) } 0x2100003F [] (fun t => t.v) =
      some (definedWords #v[0xC67178EC, 0xFFFFFFFF, 0xFFFFFFFF, 0xFFFFFFFF, 0xC67178ED, 0xFFFFFFFF, 0xFFFFFFFF,
        0xFFFFFFFF]) := by decide +kernel

theorem test_roundsAll :
    after { filled with w := definedWords (schedule abcBlock) } 0x22000000 [] (fun t => t.v) =
      some (definedWords #v[0x506E3058, 0xD39A2165, 0x04D24D6C, 0xB85E2CE9, 0x5EF50F24, 0xFB121210, 0x948D25B6,
        0x961F4894]) := by decide +kernel

theorem test_roundsAll_undefined :
    faultOf { initialised with v := definedWords romIv } 0x22000000 [] = some ⟨.W, 0⟩ := by decide +kernel

/-- Right after reset ROUNDS_ALL, ACCUM and COMPRESS_BLOCK complete, and what COMPRESS_BLOCK leaves in W does not rest on
the undefined words. -/
theorem test_runs_after_reset :
    after State.reset 0x22000000 [] (fun t => t.responses) = some [.ack []] ∧
      after State.reset 0x30000000 [] (fun t => (t.responses, t.undefinedRead)) = some ([.ack []], some ⟨.H, 0⟩) ∧
      after State.reset 0x31000000 (List.replicate 16 0) (fun t => (t.responses, t.w[16])) =
        some ([.ack []], ⟨0, true⟩) := by decide +kernel

/-- Each word wraps on its own. -/
theorem test_accum :
    after { blank with
        h := definedWords (Vector.replicate 8 0xFFFFFFFF)
        v := definedWords #v[0, 1, 2, 3, 4, 5, 6, 7] } 0x30000000 [] (fun t => t.h) =
      some (definedWords #v[0xFFFFFFFF, 0, 1, 2, 3, 4, 5, 6]) := by decide +kernel

theorem test_accum_undefined : faultOf initialised 0x30000000 [] = some ⟨.V, 0⟩ := by decide

/-- The first digest of the source (its section 8), as program P1 reads it. -/
theorem test_compressBlock :
    after initialised 0x31000000 [0x80000000, 0, 0, 0, 0, 0, 0, 0, 0, 0, 0, 0, 0, 0, 0, 0]
      (fun t => (t.h, t.v[7].value, t.w[63].value)) =
      some (definedWords #v[0xE3B0C442, 0x98FC1C14, 0x9AFBF4C8, 0x996FB924, 0x27AE41E4, 0x649B934C, 0xA495991B,
        0x7852B855], 0x1C71EB3C, 0x3B5EC49B) := by decide +kernel

theorem test_compressBlock_undefined :
    faultOf State.reset 0x31000000 (List.replicate 16 0) = some ⟨.H, 0⟩ := by decide +kernel

/-! ## Errors, lockout, reset (95, section 2.6 and program P4) -/

/-- The first error is recorded with its code and its command word, and the command wrote nothing. -/
theorem test_error_recorded :
    after blank 0x06000040 [0x12345678] (fun t => (t.responses, statusWord t, t.errInfo, t.w)) =
      some ([.nak 0x04], 0x00000401, 0x06000040, blank.w) := by decide

/-- The lowest-numbered failing check is the one reported. -/
theorem test_error_order :
    reply State.reset 0x02000009 [] = some (.nak 0x03) ∧ reply State.reset 0x1100000F [] = some (.nak 0x04) ∧
      reply State.reset 0x00000000 [] = some (.nak 0x01) ∧ reply State.reset 0x40000020 [1] = some (.nak 0x02) ∧
      reply locked 0x4C000000 [] = some (.nak 0x05) ∧ reply locked 0x0A000100 [] = some (.nak 0x02) := by decide

/-- While locked: INIT is refused and not recorded; the two status reads answer. -/
theorem test_lockout :
    after locked 0x01000000 [] (fun t => (t.responses, statusWord t, t.h)) =
        some ([.nak 0x05], 0x00000101, blank.h) ∧
      reply locked 0x0A000000 [] = some (.ack [0x00000101]) ∧ reply locked 0x0B000000 [] = some (.ack [0x00000000]) := by
  decide

/-- Reset clears the error registers and H, and answers nothing. -/
theorem test_reset :
    step { initialised with err := true, errCode := 0x04, errInfo := 0x06000040, inbox := [.reset] } =
      .next (State.afterReset 1) := by rfl

/-! ## The host's side (95, section 2.7, programs P2 and P6; R110, R111) -/

/-- The padding of the empty message, of [0x00, 0x01], and of 56 letters a, the most padding. -/
theorem test_padding :
    messageBlocks [] = [0x80000000 :: List.replicate 15 0] ∧
      messageBlocks [0x00, 0x01] = [0x00018000 :: List.replicate 14 0 ++ [0x10]] ∧
      messageBlocks (List.replicate 56 0x61) =
        [List.replicate 14 0x61616161 ++ [0x80000000, 0], List.replicate 15 0 ++ [0x1C0]] := by decide +kernel

/-- The second digest of the source (its section 8): "abc". -/
theorem test_digest_abc :
    digest [0x61, 0x62, 0x63] = some
      [0xba, 0x78, 0x16, 0xbf, 0x8f, 0x01, 0xcf, 0xea, 0x41, 0x41, 0x40, 0xde, 0x5d, 0xae, 0x22, 0x23,
       0xb0, 0x03, 0x61, 0xa3, 0x96, 0x17, 0x7a, 0x9c, 0xb4, 0x10, 0xff, 0x61, 0xf2, 0x00, 0x15, 0xad] := by decide +kernel

/-- What the host holds at the end of the procedure: the first bytes of the digest, if any, and STATUS. -/
def procedureEnd (form : Nat → BlockForm) (message : List Byte) (s : State) : Option (Option (List Byte) × Word) :=
  match computeDigest form message s with
  | some (.next (bytes, t)) => some (bytes.map (List.take 4), statusWord t)
  | _ => none

/-- Program P2: "abc" by the stepwise commands gives the same digest. -/
theorem test_digest_procedure_stepwise :
    procedureEnd (fun _ => .stepwise) [0x61, 0x62, 0x63] State.reset = some (some [0xba, 0x78, 0x16, 0xbf], 0x00000000) := by
  decide +kernel

/-- R335: on a locked engine the first command is a NAK, the digest is not computed, and the host resets the engine. -/
theorem test_digest_procedure_nak :
    procedureEnd (fun _ => .whole) [0x61, 0x62, 0x63] locked = some (none, 0x00000000) := by decide +kernel

/-- Program P6: a digest word with a leading zero byte keeps it. -/
theorem test_digest_leading_zero : (assembleDigest [0x00ABCDEF, 0xBB67AE85]).take 5 = [0x00, 0xAB, 0xCD, 0xEF, 0xBB] := by
  decide

/-- R337: both output widths of bitsequenceToBytes. -/
theorem test_bitSequenceToBytes :
    bitSequenceToBytes (some 4) [true, false, true] = [0, 0, 0, 5] ∧ bitSequenceToBytes none [true, false, true] = [5] := by
  decide

/-- The examples of R110. -/
theorem test_assembler :
    Assembler.assembleLine "INIT" = some ⟨0x01000000, []⟩ ∧
      Assembler.assembleLine "write_w 15, 0x00000018 ; a comment" = some ⟨0x0600000F, [0x00000018]⟩ ∧
      Assembler.assembleLine "ROTR 7, 0x12345678" = some ⟨0x40000007, [0x12345678]⟩ ∧
      Assembler.assembleLine "ROTR 32, 0x12345678" = none ∧ Assembler.assembleLine "ROTR 7" = none := by decide +kernel

/-- R111: RESTORE_STATE is eight requests, READ_STATE too. -/
theorem test_pseudo :
    Assembler.assemble "RESTORE_STATE 1, 2, 3, 4, 5, 6, 7, 8" =
        some [⟨0x02000000, [1]⟩, ⟨0x02000001, [2]⟩, ⟨0x02000002, [3]⟩, ⟨0x02000003, [4]⟩, ⟨0x02000004, [5]⟩,
          ⟨0x02000005, [6]⟩, ⟨0x02000006, [7]⟩, ⟨0x02000007, [8]⟩] ∧
      (Assembler.assemble "read_state").map List.length = some 8 ∧
      (Assembler.assemble "ROUNDS_STEPWISE").map List.length = some 64 ∧
      (Assembler.assemble "EXPAND_STEPWISE").map List.length = some 48 := by decide +kernel

/-! ## Witnesses: the hypotheses of each obligation can be met, at the bounds of each clause -/

/-- For the statements whose one hypothesis is ERR = 0: RotrRotatesRight, ShrShiftsRightWithZeros,
NotComplementsWithin32Bits, AndXorAreBitwise, AddWrapsModulo, ChoiceAndMajorityBitByBit, SigmaFunctionsBitByBit,
InitLoadsTheInitialHash, LoadBlockWritesSixteenWords, ExpandAllEqualsStepwise, RoundsAllEqualsStepwise,
CompressBlockEqualsStepwise, CompressionChainsOverBlocks. -/
theorem witness_unlocked : State.reset.err = false ∧ filled.err = false := by decide

theorem witness_EncodeOfDecode : decode ⟨0x4000001F, [0x12345678]⟩ = .ok (.rotr 31 0x12345678) := by decide

/-- Both clauses, at the bounds of every range of R106. -/
theorem witness_UnassignedOpcodesAreIllegal :
    State.reset.err = false ∧
      (∀ op ∈ [0x00, 0x0C, 0x0F, 0x13, 0x1F, 0x23, 0x2F, 0x32, 0x3F, 0x4C, 0xFF], unassigned op) ∧
      ∀ op ∈ [0x01, 0x0B, 0x10, 0x12, 0x20, 0x22, 0x30, 0x31, 0x40, 0x4B], ¬ unassigned op := by decide

theorem witness_StepRunsTheDecodedInstruction :
    (asked locked 0x2100003F []).inbox = .request ⟨0x2100003F, []⟩ :: [] ∧
      decode ⟨0x2100003F, []⟩ = .ok (.round 63) := by decide

/-- Each check fails first on some request, with and without ERR set (ErrorsArePreciseAndRecordedOnce), and one request
passes all (both cases of ChecksRunInTheFixedOrder). -/
theorem witness_ErrorsArePreciseAndRecordedOnce :
    firstFailingCheck locked ⟨0x4C000000, []⟩ = some .locked ∧
      firstFailingCheck State.reset ⟨0x4C000000, []⟩ = some .illegalOpcode ∧
      firstFailingCheck State.reset ⟨0x01000001, []⟩ = some .reservedBits ∧
      firstFailingCheck locked ⟨0x0A000100, []⟩ = some .reservedBits ∧
      firstFailingCheck State.reset ⟨0x02000009, []⟩ = some .operandCount ∧
      firstFailingCheck State.reset ⟨0x02000008, [1]⟩ = some .indexRange ∧
      firstFailingCheck State.reset ⟨0x11000040, []⟩ = some .indexRange ∧
      firstFailingCheck State.reset ⟨0x1100003F, []⟩ = none ∧
      firstFailingCheck State.reset ⟨0x02000007, [1]⟩ = none := by decide

/-- A locked engine, and requests whose opcodes stand next to the two status reads. -/
theorem witness_LockoutUntilReset :
    locked.err = true ∧ (0x09000000 : Word).toNat / 2 ^ 24 ≠ 0x0A ∧ (0x09000000 : Word).toNat / 2 ^ 24 ≠ 0x0B ∧
      (0x0C000000 : Word).toNat / 2 ^ 24 ≠ 0x0A ∧ (0x0C000000 : Word).toNat / 2 ^ 24 ≠ 0x0B := by decide

theorem witness_LockedInstructionsAreRefused :
    locked.err = true ∧ Instr.init ≠ .readStatus ∧ Instr.init ≠ .readErrinfo := by decide

theorem witness_OutOfRangeIndexIsRefused :
    State.reset.err = false ∧ (Instr.writeH 8 1).wellFormed = false ∧ (Instr.expandStep 15).wellFormed = false ∧
      (Instr.round 255).wellFormed = false := by decide

/-- A request and a reset, each taken. -/
theorem witness_OneResponsePerRequest :
    (∃ t, step (asked State.reset 0x01000000 []) = .next t) ∧
      ∃ t, step { State.reset with inbox := [.reset] } = .next t := ⟨⟨_, rfl⟩, ⟨_, rfl⟩⟩

theorem witness_IdleEngineHoldsItsState : State.reset.inbox = [] := by decide

/-- A step from a state that meets the invariant: one that records an error, one that does not, and one that is locked
(RomsNeverChange, StepKeepsErrorRegisters, DefinedWordsStayDefined, the last with a note that stays). -/
theorem witness_StepKeepsErrorRegisters :
    ErrorRegistersOk (asked filled 0x4C000000 []) ∧ (∃ t, step (asked filled 0x4C000000 []) = .next t) ∧
      ErrorRegistersOk (asked filled 0x22000000 []) ∧ (∃ t, step (asked filled 0x22000000 []) = .next t) ∧
      ErrorRegistersOk (asked locked 0x22000000 []) ∧ (∃ t, step (asked locked 0x22000000 []) = .next t) ∧
      (asked filled 0x22000000 []).inbox.head? ≠ some .reset ∧
      { asked filled 0x22000000 [] with undefinedRead := some ⟨.W, 3⟩ }.undefinedRead = some ⟨.W, 3⟩ := by
  refine ⟨by decide, ⟨_, rfl⟩, by decide, ⟨_, rfl⟩, by decide, ⟨_, rfl⟩, by decide, rfl⟩

/-- Two different states that look the same. -/
theorem witness_UndefinedValuesAreNeverSeen :
    SameVisible blank { blank with v := Vector.replicate 8 ⟨0x12345678, false⟩ } ∧
      blank ≠ { blank with v := Vector.replicate 8 ⟨0x12345678, false⟩ } := by
  refine ⟨?_, ?_⟩
  · decide
  · decide

/-- A read of a defined word, one of an undefined word, and a status read while locked, each asked a second time. -/
theorem witness_ObservationChangesNothing :
    observes (.readH 7) = true ∧ (Instr.readH 7).wellFormed = true ∧
      (∃ t, exec (.readH 7) initialised = .next t ∧ ∃ u, exec (.readH 7) t = .next u) ∧
      (∃ t, exec (.readH 7) State.reset = .next t ∧ ∃ u, exec (.readH 7) t = .next u) ∧
      observes .readStatus = true ∧ ∃ t, exec .readStatus locked = .next t ∧ ∃ u, exec .readStatus t = .next u := by
  refine ⟨by decide, by decide, ⟨_, rfl, _, rfl⟩, ⟨_, rfl, _, rfl⟩, by decide, ⟨_, rfl, _, rfl⟩⟩

theorem witness_WritesSetOneWord :
    State.reset.err = false ∧ (7 : BitVec 8).toNat ≤ 7 ∧ (63 : BitVec 8).toNat ≤ 63 ∧ (0 : BitVec 8).toNat ≤ 7 := by decide

/-- A defined word and an undefined one. -/
theorem witness_ReadsAnswerTheWord :
    filled.err = false ∧ blank.err = false ∧ blank.h[(7 : BitVec 8).toNat]? = some unwritten ∧ filled.h[(7 : BitVec 8).toNat]? = some ⟨0x5BE0CD19, true⟩ ∧
      filled.v[(0 : BitVec 8).toNat]? = some ⟨0x6A09E667, true⟩ ∧
      filled.w[(63 : BitVec 8).toNat]? = some ⟨0x00000000, true⟩ := by decide

theorem witness_ReadsNameUndefinedWords :
    State.reset.err = false ∧ State.reset.undefinedRead = none ∧ undefinedAt State.reset.h (7 : BitVec 8).toNat ∧
      undefinedAt State.reset.v (0 : BitVec 8).toNat ∧ undefinedAt State.reset.w (63 : BitVec 8).toNat := by decide

theorem witness_RomReadsAnswerTheRomWord :
    State.reset.err = false ∧ (63 : BitVec 8).toNat ≤ 63 ∧ (7 : BitVec 8).toNat ≤ 7 := by decide

/-- At both ends of 16..63. -/
theorem witness_ExpandStepWritesTheRecurrence :
    filled.err = false ∧ blank.w[0]? = some unwritten ∧
      ∀ index ∈ [(16 : BitVec 8), 63], 16 ≤ index.toNat ∧ index.toNat ≤ 63 ∧
        filled.w[index.toNat - 16]? = some ⟨0, true⟩ ∧ filled.w[index.toNat - 15]? = some ⟨0, true⟩ ∧
        filled.w[index.toNat - 7]? = some ⟨0, true⟩ ∧ filled.w[index.toNat - 2]? = some ⟨0, true⟩ := by decide

/-- The last read is the first undefined one (program P7). -/
theorem witness_ExpandStepNamesTheFirstUndefinedWord :
    zeroBlock.err = false ∧ zeroBlock.undefinedRead = none ∧ 16 ≤ (18 : BitVec 8).toNat ∧ (18 : BitVec 8).toNat ≤ 63 ∧
      (∀ q : Fin 4, q < 3 → definedAt zeroBlock.w ((18 : BitVec 8).toNat - [16, 15, 7, 2][q])) ∧
      undefinedAt zeroBlock.w ((18 : BitVec 8).toNat - [16, 15, 7, 2][(3 : Fin 4)]) := by decide

/-- A loaded block, and one no word of which is defined. -/
theorem witness_ExpandAllComputesTheSchedule :
    zeroBlock.err = false ∧ (∀ j < 16, definedAt zeroBlock.w j) ∧
      (∀ j < 16, zeroBlock.w[j]?.map MarkedWord.value = (Vector.replicate 16 0 : Block)[j]?) ∧
      ∀ j < 16, blank.w[j]?.map MarkedWord.value = (Vector.replicate 16 0 : Block)[j]? := by decide

/-- The first word read, and the last one: all of W[0..15] defined but W[8]. -/
theorem witness_ExpandAllNamesTheFirstUndefinedWord :
    State.reset.err = false ∧ State.reset.undefinedRead = none ∧ undefinedAt State.reset.w (expandReadOrder.getD (0 : Fin 16) 0) ∧
      (∀ q : Fin 16, q < 15 →
        definedAt (zeroBlock.w.set 8 unwritten) (expandReadOrder.getD q 0)) ∧
      undefinedAt (zeroBlock.w.set 8 unwritten) (expandReadOrder.getD (15 : Fin 16) 0) := by decide

/-- H defined (second clause); H[7] the lowest undefined word (third clause), as ROUND, ROUNDS_ALL, ACCUM and
COMPRESS_BLOCK need it of H or V too. -/
theorem witness_LoadVCopiesTheHashState :
    initialised.err = false ∧ initialised.undefinedRead = none ∧ (∀ k < 8, definedAt initialised.h k) ∧
      (∀ j < 7, definedAt (initialised.h.set 7 unwritten) j) ∧
      undefinedAt (initialised.h.set 7 unwritten) 7 ∧ undefinedAt State.reset.h 0 := by decide

theorem witness_RoundUpdatesTheWorkingVariables :
    filled.err = false ∧ (63 : BitVec 8).toNat ≤ 63 ∧
      valuesOf filled.v = #v[0x6A09E667, 0xBB67AE85, 0x3C6EF372, 0xA54FF53A, 0x510E527F, 0x9B05688C, 0x1F83D9AB,
        0x5BE0CD19] ∧ (∀ k < 8, definedAt filled.v k) ∧
      filled.w[(63 : BitVec 8).toNat]? = some ⟨0, true⟩ ∧ filled.k[(63 : BitVec 8).toNat]? = some 0xC67178F2 := by decide

/-- V[7] the lowest undefined word (first clause); V defined and W[63] undefined (second clause). -/
theorem witness_RoundNamesTheFirstUndefinedWord :
    filled.err = false ∧ filled.undefinedRead = none ∧ (63 : BitVec 8).toNat ≤ 63 ∧ (∀ j < 7, definedAt (filled.v.set 7 unwritten) j) ∧
      undefinedAt (filled.v.set 7 unwritten) 7 ∧ (∀ k < 8, definedAt filled.v k) ∧
      undefinedAt zeroBlock.w (63 : BitVec 8).toNat := by decide

theorem witness_RoundsAllFoldsTheRound :
    filled.err = false ∧ (∀ k < 8, definedAt filled.v k) ∧ ∀ j < 64, definedAt filled.w j := by decide

/-- V undefined from its first word; V defined and W[16] the first undefined word of W. -/
theorem witness_RoundsAllNamesTheFirstUndefinedWord :
    zeroBlock.err = false ∧ zeroBlock.undefinedRead = none ∧ undefinedAt zeroBlock.v 0 ∧ (∀ k < 8, definedAt filled.v k) ∧
      (∀ j < 16, definedAt zeroBlock.w j) ∧ undefinedAt zeroBlock.w 16 := by decide

theorem witness_AccumAddsWordByWord :
    filled.err = false ∧ (∀ k < 8, definedAt filled.h k) ∧ ∀ k < 8, definedAt filled.v k := by decide

/-- H undefined; H defined and V undefined (the state after INIT). -/
theorem witness_AccumNamesTheFirstUndefinedWord :
    State.reset.err = false ∧ State.reset.undefinedRead = none ∧ undefinedAt State.reset.h 0 ∧
      initialised.err = false ∧ initialised.undefinedRead = none ∧
      (∀ k < 8, definedAt initialised.h k) ∧ undefinedAt initialised.v 0 := by decide

/-- H defined (CompressBlockComputesCompress); H undefined (CompressBlockNamesTheLowestUndefinedHash). -/
theorem witness_CompressBlockComputesCompress :
    initialised.err = false ∧ (∀ k < 8, definedAt initialised.h k) ∧ State.reset.err = false ∧
      State.reset.undefinedRead = none ∧ undefinedAt State.reset.h 0 := by decide

/-- The only fault COMPRESS_BLOCK has comes from H. -/
theorem witness_CompressBlockNamesTheLowestUndefinedHash :
    faultOf State.reset 0x31000000 (List.replicate 16 0) = some ⟨.H, 0⟩ := by decide +kernel

/-- Both clauses, and the range of 0 bits: empty for 447 bits, seven bits for 440 (55 bytes). -/
theorem witness_PaddingMakesWholeBlocks :
    (List.replicate 440 true).length < 2 ^ 64 ∧ zeroBits 440 = 7 ∧ zeroBits 447 = 0 ∧ zeroBits 448 = 511 ∧
      accepts (List.replicate 55 0x61) = true ∧ (List.replicate 55 (0x61 : Byte))[54]? = some 0x61 ∧
      ∀ ws ∈ messageBlocks [], ws.length = 16 := by decide +kernel

theorem witness_DigestIsThirtyTwoBytes :
    romIv.toList.length = 8 ∧ romIv.toList[7]? = some 0x5BE0CD19 ∧ romIv.toList[0]? = some 0x6A09E667 := by decide

theorem witness_RestoreStateWritesTheHashState :
    State.reset.err = false ∧
      ({ State.reset with inbox := (restoreState romIv.toList).map .request ++ [] } : State).inbox =
        (restoreState romIv.toList).map .request ++ [] := by
  exact ⟨by decide, rfl⟩

/-- R332: a message of 2^61 bytes or more is refused. -/
theorem refused (n : Nat) (long : 2 ^ 61 ≤ n) : accepts (List.replicate n 0) = false := by
  simp only [accepts, List.length_replicate, Config.lengthFieldBits, decide_eq_false_iff_not, Nat.not_lt]
  omega

/-- The empty message: INIT, one block whole or in five commands, eight reads; and a message the host refuses. -/
theorem witness_DigestProcedureAnswersTheDigest :
    State.reset.err = false ∧ locked.err = true ∧ RomsIntact State.reset ∧ accepts [] = true ∧
      (digestRequests (fun _ => .whole) []).map List.length = some 10 ∧
      (digestRequests (fun _ => .stepwise) []).map List.length = some 14 ∧
      (∃ t, transact initRequest locked = .next t ∧ t.responses.head? = some (.nak 0x05)) ∧
      ∃ message : List Byte, accepts message = false :=
  ⟨rfl, rfl, ⟨rfl, rfl⟩, by decide, by decide +kernel, by decide +kernel, ⟨_, rfl, rfl⟩, ⟨_, refused _ (Nat.le_refl _)⟩⟩

end Sys2Proof.Tests
end

section
/-! PROOFS. The facts the proofs about the state share: the tables of R105 to R107 by opcode number, what a step can do
to the arrays, the ROMs and the note, and where the spec's model stops (R366). -/

namespace Sys2Proof.Proofs

open Sys2Proof.Machine Sys2Proof.Safety

/-! ### The opcode map and R105's lists of opcode numbers -/

/-- The opcode map has no row for exactly the opcodes of R106. -/
theorem rowOf_eq_none_iff (cmd : Word) : rowOf (opField cmd) = none ↔ unassigned (cmd.toNat / 2 ^ 24) := by
  have table : ∀ op : BitVec 8, rowOf op = none ↔ unassigned op.toNat := by decide
  rw [table, opField_toNat]

theorem rowOf_format (op : BitVec 8) (row : Row) (found : rowOf op = some row) :
    (row.format = .cmdI ↔ op.toNat ∈ indexOps) ∧ (row.format = .cmdA ↔ op.toNat ∈ amountOps) := by
  have table : ∀ op : BitVec 8, ∀ row ∈ rowOf op,
      (row.format = .cmdI ↔ op.toNat ∈ indexOps) ∧ (row.format = .cmdA ↔ op.toNat ∈ amountOps) := by decide
  exact table op row found

/-- R107 by the row's format and by opcode number are the same test. -/
theorem reservedBitsSet_iff (cmd : Word) (row : Row) (found : rowOf (opField cmd) = some row) :
    reservedBitsSet row.format cmd = true ↔ hasReservedBits (cmd.toNat / 2 ^ 24) cmd.toNat := by
  obtain ⟨indexFormat, amountFormat⟩ := rowOf_format _ _ found
  rw [opField_toNat] at indexFormat amountFormat
  simp only [hasReservedBits, ← indexFormat, ← amountFormat, ← argField_toNat, ← rsvField_toNat, ← amountReserved_toNat]
  cases row.format <;> simp [reservedBitsSet, ← BitVec.toNat_inj]

/-- Checks 2, 3 and 4 of R362: which one a request that does not decode fails. -/
theorem decode_eq_error (r : Request) (c : ErrorCode) (fails : decode r = .error c) :
    (c = .illegalOpcode ∧ rowOf (opField r.cmd) = none) ∨
      ∃ row, rowOf (opField r.cmd) = some row ∧
        ((c = .reservedBits ∧ reservedBitsSet row.format r.cmd = true) ∨
          (c = .operandCount ∧ reservedBitsSet row.format r.cmd = false)) := by
  unfold decode at fails
  split at fails
  · next found => cases fails; exact .inl ⟨rfl, found⟩
  · next row found =>
    refine .inr ⟨row, found, ?_⟩
    split at fails
    · next set => cases fails; exact .inl ⟨rfl, set⟩
    · next clean =>
      have operandCount : c = .operandCount := by
        split at fails
        · cases fails; rfl
        · split at fails <;> cases fails
          rfl
      exact .inr ⟨operandCount, by simpa using clean⟩

/-- Checks 1 to 4 of R362: a request that an engine refuses is refused by the lockout or by the decoder. -/
theorem acceptRequest_eq_error (r : Request) (s : State) (c : ErrorCode) (fails : acceptRequest r s = .error c) :
    (c = .locked ∧ s.err = true) ∨ decode r = .error c := by
  unfold acceptRequest at fails
  split at fails
  · next out =>
    cases fails
    simp only [lockedOut, Bool.and_eq_true] at out
    exact .inl ⟨rfl, out.1⟩
  · exact .inr fails

/-! ### What a step can do to the arrays, the ROMs and the note -/

/-- The two states have the same arrays, ROMs and note of an undefined read: they differ at most in the error registers,
the count of resets and the port. -/
structure SameData (s t : State) : Prop where
  h : t.h = s.h
  v : t.v = s.v
  w : t.w = s.w
  k : t.k = s.k
  iv : t.iv = s.iv
  undefinedRead : t.undefinedRead = s.undefinedRead

/-- A NAK, given when its request is taken from the inbox, changes no array, no ROM and no note (R361). -/
theorem SameData.nak (code : BitVec 8) (c : ErrorCode) (cmd : Word) (s : State) (rest : List HostAction) :
    SameData s (respond (.nak code) (recordError c cmd { s with inbox := rest })) := by
  constructor <;> simp

/-- A step resets the engine, or leaves the arrays, ROMs and note alone, or leaves them as an instruction's effect
does. -/
theorem step_data (s t : State) (next : step s = .next t) :
    (∃ rest, s.inbox = .reset :: rest ∧ t = hostReset { s with inbox := rest }) ∨
      SameData s t ∨ ∃ i rest, SameData (effectOf i { s with inbox := rest }).1 t := by
  obtain ⟨-, rfl⟩ | reset | ⟨r, rest, -, ⟨c, -, rfl⟩ | ⟨i, -, ran⟩⟩ := step_next s t next
  · exact .inr (.inl ⟨rfl, rfl, rfl, rfl, rfl, rfl⟩)
  · exact .inl reset
  · exact .inr (.inl (SameData.nak c.code c r.cmd s rest))
  · refine .inr ?_
    obtain ⟨-, rfl⟩ | ⟨-, rfl⟩ | ⟨-, rfl⟩ := exec_next i _ t ran
    · exact .inl ⟨rfl, rfl, rfl, rfl, rfl, rfl⟩
    · exact .inl (SameData.nak 0x04 .indexRange (encode i).cmd s rest)
    · exact .inr ⟨i, rest, rfl, rfl, rfl, rfl, rfl, rfl⟩

/-! ### Where the spec's model stops -/

/-- An instruction whose effect notes no read notes none, whether it completes or is refused. -/
theorem exec_undefinedRead (i : Instr) (s t : State) (unread : (effectOf i s).1.undefinedRead = s.undefinedRead)
    (next : exec i s = .next t) : t.undefinedRead = s.undefinedRead := by
  obtain ⟨-, rfl⟩ | ⟨-, rfl⟩ | ⟨-, rfl⟩ := exec_next i s t next
  · rfl
  · simp
  · exact unread

/-- The spec's model goes on where no undefined read is noted (R366). -/
theorem stopAtUndefinedRead_of_none (t : State) (unread : t.undefinedRead = none) :
    stopAtUndefinedRead (.next t) = .next t := by
  simp [stopAtUndefinedRead, unread]

/-- The spec's model stops with the read that is noted (R366). -/
theorem stopAtUndefinedRead_of_some (t : State) (read : UndefinedRead) (noted : t.undefinedRead = some read) :
    stopAtUndefinedRead (.next t) = .fault read := by
  simp [stopAtUndefinedRead, noted]

/-- In a run without an undefined read, an instruction whose effect notes none never stops the spec's model. -/
theorem stopAtUndefinedRead_exec (i : Instr) (s : State) (unnoted : s.undefinedRead = none)
    (unread : (effectOf i s).1.undefinedRead = s.undefinedRead) : ∃ t, stopAtUndefinedRead (exec i s) = .next t := by
  obtain ⟨t, next⟩ := exec_answers i s
  have clean : t.undefinedRead = none := (exec_undefinedRead i s t unread next).trans unnoted
  exact ⟨t, by rw [next, stopAtUndefinedRead_of_none t clean]⟩

/-! ### Marks -/

/-- Only an index inside the array has a mark. -/
theorem lt_of_mark {n : Nat} (xs : Vector MarkedWord n) (i : Nat) (mark : Bool)
    (at_i : xs[i]?.map MarkedWord.defined = some mark) : i < n := by
  by_contra outside
  simp [outside] at at_i

end Sys2Proof.Proofs
end

section
/-! PROOFS. The error registers (spec R38, R39, R363): every step keeps them consistent. The idea: only a recorded error
changes them, and what is recorded is the check its command word fails first, read off the opcode numbers of R105 to
R107. -/

namespace Sys2Proof.Proofs

open Sys2Proof.Machine Sys2Proof.Safety

/-! ### The check a command word fails first -/

theorem failsFirst_of_unassigned (code : BitVec 8) (cmd : Word) (unfound : unassigned (cmd.toNat / 2 ^ 24)) :
    failsFirst code cmd = (code == 0x01) := if_pos unfound

theorem failsFirst_of_reserved (code : BitVec 8) (cmd : Word) (known : ¬ unassigned (cmd.toNat / 2 ^ 24))
    (set : hasReservedBits (cmd.toNat / 2 ^ 24) cmd.toNat) : failsFirst code cmd = (code == 0x02) := by
  rw [failsFirst, if_neg known, if_pos set]

theorem failsFirst_of_clean (code : BitVec 8) (cmd : Word) (known : ¬ unassigned (cmd.toNat / 2 ^ 24))
    (clean : ¬ hasReservedBits (cmd.toNat / 2 ^ 24) cmd.toNat) :
    failsFirst code cmd =
      (code == 0x03 || (code == 0x04 && decide (indexOutside (cmd.toNat / 2 ^ 24) (cmd.toNat % 2 ^ 8)))) := by
  rw [failsFirst, if_neg known, if_neg clean]

/-- The code with which a request does not decode can be the first check that its command word fails. -/
theorem failsFirst_of_decode_error (r : Request) (c : ErrorCode) (fails : decode r = .error c) :
    failsFirst c.code r.cmd = true := by
  obtain ⟨rfl, unfound⟩ | ⟨row, found, cause⟩ := decode_eq_error r c fails
  · rw [failsFirst_of_unassigned _ _ ((rowOf_eq_none_iff r.cmd).mp unfound)]
    rfl
  · have known : ¬ unassigned (r.cmd.toNat / 2 ^ 24) := by
      rw [← rowOf_eq_none_iff, found]
      exact Option.some_ne_none row
    have reserved := reservedBitsSet_iff r.cmd row found
    obtain ⟨rfl, set⟩ | ⟨rfl, clean⟩ := cause
    · rw [failsFirst_of_reserved _ _ known (reserved.mp set)]
      rfl
    · rw [failsFirst_of_clean _ _ known (by rw [← reserved, clean]; decide)]
      rfl

theorem indexWithin_eq_false_iff (lo hi : Nat) (arg : BitVec 8) :
    indexWithin lo hi arg = false ↔ arg.toNat < lo ∨ hi < arg.toNat := by
  simp only [indexWithin, Bool.and_eq_false_iff, decide_eq_false_iff_not, Nat.not_le]

/-- An instruction whose ARG byte is outside its range has an index that R105, by opcode number, calls outside. -/
theorem indexOutside_of_not_wellFormed (i : Instr) (bad : i.wellFormed = false) :
    indexOutside i.op.toNat i.arg.toNat := by
  have beyond : ∀ (hi : Nat) (arg : BitVec 8), indexWithin 0 hi arg = false → hi < arg.toNat := fun hi arg out =>
    ((indexWithin_eq_false_iff 0 hi arg).mp out).resolve_left (Nat.not_lt_zero _)
  cases i with
  | writeH index | readH index | writeV index | readV index | readIv index =>
    exact .inl ⟨by simp [Instr.op], beyond 7 index bad⟩
  | writeW index | readW index | readK index | round index =>
    exact .inr (.inl ⟨by simp [Instr.op], beyond 63 index bad⟩)
  | expandStep index => exact .inr (.inr ⟨rfl, (indexWithin_eq_false_iff 16 63 index).mp bad⟩)
  | _ => cases bad

/-- Only CMD-I opcodes have an index that can be outside (R105). -/
theorem mem_indexOps_of_indexOutside (op arg : Nat) (outside : indexOutside op arg) : op ∈ indexOps := by
  simp only [indexOutside, indexOps, List.mem_cons, List.not_mem_nil, or_false] at outside ⊢
  omega

/-- INDEX_RANGE can be the first check that a CMD-I word with its index outside the range fails. -/
theorem failsFirst_indexRange (op arg : BitVec 8) (outside : indexOutside op.toNat arg.toNat) :
    failsFirst ErrorCode.indexRange.code (cmdWord op arg) = true := by
  have indexed := mem_indexOps_of_indexOutside _ _ outside
  have opIs : (cmdWord op arg).toNat / 2 ^ 24 = op.toNat := by rw [← opField_toNat, opField_cmdWord]
  have rsvIs : (cmdWord op arg).toNat / 2 ^ 8 % 2 ^ 16 = 0 := by rw [← rsvField_toNat, rsvField_cmdWord]; rfl
  have argIs : (cmdWord op arg).toNat % 2 ^ 8 = arg.toNat := by rw [← argField_toNat, argField_cmdWord]
  have known : ∀ op ∈ indexOps, ¬ unassigned op := by decide
  have noAmount : ∀ op ∈ indexOps, op ∉ amountOps := by decide
  rw [failsFirst_of_clean]
  · rw [opIs, argIs, decide_eq_true outside]
    rfl
  · rw [opIs]
    exact known _ indexed
  · rw [opIs, hasReservedBits, rsvIs]
    rintro (rsv | ⟨notIndexed, -⟩ | ⟨amount, -⟩)
    · exact rsv rfl
    · exact notIndexed indexed
    · exact noAmount _ indexed amount

/-! ### What keeps the error registers consistent -/

/-- Recording an error keeps the registers consistent if, were it recorded, its command word could fail that check
first. -/
theorem recordError_registersOk (c : ErrorCode) (cmd : Word) (s : State) (ok : ErrorRegistersOk s)
    (fails : s.err = false → c ≠ .locked → failsFirst c.code cmd = true) : ErrorRegistersOk (recordError c cmd s) := by
  by_cases first : c ≠ .locked ∧ s.err = false
  · rw [recordError_first _ _ _ first.2 first.1]
    exact .inr ⟨rfl, fails first.2 first.1⟩
  · rwa [recordError, if_neg first]

theorem exec_registersOk (i : Instr) (s t : State) (ok : ErrorRegistersOk s) (next : exec i s = .next t) :
    ErrorRegistersOk t := by
  obtain ⟨-, rfl⟩ | ⟨bad, rfl⟩ | ⟨-, rfl⟩ := exec_next i s t next
  · exact ok
  · exact recordError_registersOk .indexRange _ s ok fun _ _ =>
      failsFirst_indexRange _ _ (indexOutside_of_not_wellFormed i bad)
  · have kept := effectOf_keeps i s
    simpa [ErrorRegistersOk, kept.err, kept.errCode, kept.errInfo] using ok

/-- Settles O19: only a recorded error changes the registers, and it records the check its command word fails first. -/
theorem stepKeepsErrorRegisters : Obligations.StepKeepsErrorRegisters := by
  intro s t ok next
  obtain ⟨-, rfl⟩ | ⟨rest, -, rfl⟩ | ⟨r, rest, -, ⟨c, refused, rfl⟩ | ⟨i, -, ran⟩⟩ := step_next s t next
  · exact ok
  · exact .inl ⟨rfl, rfl, rfl⟩
  · refine recordError_registersOk c r.cmd _ ok fun unlocked notLocked => ?_
    obtain ⟨locked, -⟩ | undecoded := acceptRequest_eq_error _ _ _ refused
    · exact absurd locked notLocked
    · exact failsFirst_of_decode_error r c undecoded
  · exact exec_registersOk i { s with inbox := rest } t ok ran

end Sys2Proof.Proofs
end

section
/-! PROOFS. The state after reset (spec R44), the ROMs (R35 to R37) and the status reads (R38, R209, R210). -/

namespace Sys2Proof.Proofs

open Sys2Proof.Machine Sys2Proof.Safety

/-! ### Reset -/

/-- Settles O15: the arrays after a reset are unspecified words, and every other field has its value in R44. -/
theorem stateAfterReset : Obligations.StateAfterReset :=
  ⟨unspecifiedWords_undefined .H 0, unspecifiedWords_undefined .V 0, unspecifiedWords_undefined .W 0, rfl, rfl,
    rfl, rfl, rfl, rfl, rfl⟩

/-- Settles O20: the error registers are 0 with ERR clear, and the ROM fields are the tables themselves. -/
theorem invariantsHoldAfterReset : Obligations.InvariantsHoldAfterReset := ⟨.inl ⟨rfl, rfl, rfl⟩, rfl, rfl⟩

/-! ### The ROMs -/

/-- No step, a reset included, writes a ROM (R37). -/
theorem step_roms (s t : State) (next : step s = .next t) : t.k = s.k ∧ t.iv = s.iv := by
  obtain ⟨rest, -, rfl⟩ | same | ⟨i, rest, same⟩ := step_data s t next
  · exact ⟨rfl, rfl⟩
  · exact ⟨same.k, same.iv⟩
  · have kept := effectOf_keeps i { s with inbox := rest }
    exact ⟨same.k.trans kept.k, same.iv.trans kept.iv⟩

/-- Settles O16: no effect names the ROMs, and READ_K and READ_IV have no reads to note. -/
theorem romsNeverChange : Obligations.RomsNeverChange :=
  ⟨step_roms, fun s index unnoted =>
    ⟨stopAtUndefinedRead_exec (.readK index) s unnoted rfl, stopAtUndefinedRead_exec (.readIv index) s unnoted rfl⟩⟩

/-! ### The ROM tables as bits of roots of primes -/

/-- The numbers below `n` that satisfy `p`, in increasing order, are the first values of `Nat.nth p`. -/
theorem nth_eq_of_filter_range (p : Nat → Prop) [DecidablePred p] (n i x : Nat)
    (at_i : ((List.range n).filter p)[i]? = some x) : Nat.nth p i = x := by
  induction n with
  | zero => simp at at_i
  | succ n ih =>
    rw [List.range_succ, List.filter_append, List.getElem?_append] at at_i
    split at at_i
    · exact ih at_i
    · next beyond =>
      have length : ((List.range n).filter p).length = Nat.count p n := List.countP_eq_length_filter.symm
      rw [length] at at_i beyond
      by_cases holds : p n
      · obtain ⟨last, rfl⟩ : i - Nat.count p n = 0 ∧ n = x := by simpa [holds, List.getElem?_singleton] using at_i
        rw [show i = Nat.count p n by omega, Nat.nth_count holds]
      · simp [holds] at at_i

/-- The first 64 primes (R35, R36). -/
def firstPrimes : List Nat :=
  [2, 3, 5, 7, 11, 13, 17, 19, 23, 29, 31, 37, 41, 43, 47, 53, 59, 61, 67, 71, 73, 79, 83, 89, 97, 101, 103, 107, 109,
   113, 127, 131, 137, 139, 149, 151, 157, 163, 167, 173, 179, 181, 191, 193, 197, 199, 211, 223, 227, 229, 233, 239,
   241, 251, 257, 263, 269, 271, 277, 281, 283, 293, 307, 311]

theorem filter_range_prime : (List.range 312).filter Nat.Prime = firstPrimes := by decide +kernel

theorem nth_prime_eq (i : Nat) (inside : i < 64) : Nat.nth Nat.Prime i = firstPrimes[i] :=
  nth_eq_of_filter_range Nat.Prime 312 i _ (by rw [filter_range_prime]; exact List.getElem?_eq_getElem inside)

/-- A read of one word is the word itself where the index is inside. -/
theorem wordAt_of_lt {n : Nat} (xs : Vector Word n) (i : Nat) (inside : i < n) : wordAt xs i = xs[i] := by
  simp [wordAt, inside]

/-- A word is what is left of a number when the part above its 32 bits is dropped. -/
theorem toNat_eq_mod (c : Nat) (x : Word) : x.toNat = (c * 2 ^ 32 + x.toNat) % 2 ^ 32 := by omega

/-- Each word of K, below the integer part `c`, makes the floor of `cbrt p * 2^32` (R35). -/
theorem romK_isCubeRoot : ∀ i : Fin 64, ∃ c < 7,
    (c * 2 ^ 32 + romK[i].toNat) ^ 3 ≤ firstPrimes[i] * 2 ^ 96 ∧
      firstPrimes[i] * 2 ^ 96 < (c * 2 ^ 32 + romK[i].toNat + 1) ^ 3 := by
  decide +kernel

/-- Each word of IV, below the integer part `c`, makes the floor of `sqrt p * 2^32` (R36). -/
theorem romIv_isSquareRoot : ∀ k : Fin 8, ∃ c < 5,
    (c * 2 ^ 32 + romIv[k].toNat) ^ 2 ≤ firstPrimes[k] * 2 ^ 64 ∧
      firstPrimes[k] * 2 ^ 64 < (c * 2 ^ 32 + romIv[k].toNat + 1) ^ 2 := by
  decide +kernel

/-- Settles O17: the root is the ROM word under an integer part below 7, since no prime in use reaches 7^3. -/
theorem roundConstantsAreCubeRootBits : Obligations.RoundConstantsAreCubeRootBits := by
  refine ⟨fun i inside => ?_, fun s t next => (step_roms s t next).1⟩
  obtain ⟨c, -, below, above⟩ := romK_isCubeRoot ⟨i, inside⟩
  rw [nth_prime_eq i inside, wordAt_of_lt _ i inside]
  exact ⟨_, below, above, toNat_eq_mod c romK[i]⟩

/-- Settles O18: the root is the ROM word under an integer part below 5, since no prime in use reaches 5^2. -/
theorem initialHashIsSquareRootBits : Obligations.InitialHashIsSquareRootBits := by
  refine ⟨fun k inside => ?_, fun s t next => (step_roms s t next).2⟩
  obtain ⟨c, -, below, above⟩ := romIv_isSquareRoot ⟨k, inside⟩
  rw [nth_prime_eq k (by omega), wordAt_of_lt _ k inside]
  exact ⟨_, below, above, toNat_eq_mod c romIv[k]⟩

/-! ### The status reads -/

theorem statusWord_toNat (s : State) : (statusWord s).toNat = s.err.toNat + s.errCode.toNat * 2 ^ 8 := by
  have code := s.errCode.isLt
  have err := s.err.toNat_le
  rw [statusWord, BitVec.toNat_ofNat]
  omega

/-- Bits 7:1 and 31:16 of STATUS read 0 (R38). -/
theorem statusWord_reserved (s : State) (j : Nat) (reserved : 1 ≤ j ∧ j ≤ 7 ∨ 16 ≤ j) :
    (statusWord s).getLsbD j = false := by
  have err : s.err.toNat < 2 ^ 8 := by have := s.err.toNat_le; omega
  rw [← BitVec.testBit_toNat, statusWord_toNat, Nat.add_comm, Nat.mul_comm, Nat.testBit_two_pow_mul_add _ err]
  obtain ⟨low, high⟩ | upper := reserved
  · rw [if_pos (by omega)]
    exact Nat.testBit_lt_two_pow (s.err.toNat_lt.trans_le (Nat.le_self_pow (by omega) 2))
  · rw [if_neg (by omega)]
    exact Nat.testBit_lt_two_pow (s.errCode.isLt.trans_le (Nat.pow_le_pow_right (by omega) (by omega)))

/-- Settles O36: neither status read is subject to the lockout, and neither has an index to be checked. -/
theorem statusReadsAlwaysAnswer : Obligations.StatusReadsAlwaysAnswer := fun s =>
  ⟨⟨statusWord s, rfl, statusWord_toNat s, statusWord_reserved s⟩, rfl⟩

end Sys2Proof.Proofs
end

section
/-! PROOFS. Definedness (spec R43, R366): marks and the note are kept by every step but a reset, and a read of an
undefined word is named. -/

namespace Sys2Proof.Proofs

open Sys2Proof.Machine Sys2Proof.Safety

/-! ### Marks and the note -/

/-- A written word stays defined or becomes so (R43). -/
theorem definedAt_writeWord {n : Nat} (xs : Vector MarkedWord n) (i j : Nat) (x : Word) (set : definedAt xs j) :
    definedAt (writeWord xs i x) j := by
  have inside := lt_of_mark xs j true set
  rw [definedAt, getElem?_writeWord]
  split
  · next same => simp [same, inside]
  · exact set

/-- An array written as a whole has all its marks set (R43). -/
theorem definedAt_definedWords {n : Nat} (xs : Vector MarkedWord n) (ys : Vector Word n) (j : Nat)
    (set : definedAt xs j) : definedAt (definedWords ys) j := by
  have inside := lt_of_mark xs j true set
  simp [definedAt, inside]

theorem definedAt_writeBlock (xs : Vector MarkedWord 64) (b : Block) (j : Nat) (set : definedAt xs j) :
    definedAt (writeBlock xs b) j := by
  rw [definedAt]
  by_cases low : j < 16
  · rw [getElem?_writeBlock_low xs b j low]
    simp [low]
  · rw [getElem?_writeBlock_high xs b j (by omega)]
    exact set

/-- No mark that is set is cleared, and a note is kept (R43, R366). -/
structure KeepsMarks (s t : State) : Prop where
  marks : MarksKept s t
  note : ∀ read, s.undefinedRead = some read → t.undefinedRead = some read

theorem KeepsMarks.refl (s : State) : KeepsMarks s s := ⟨⟨fun _ => id, fun _ => id, fun _ => id⟩, fun _ => id⟩

theorem KeepsMarks.trans {s t u : State} (a : KeepsMarks s t) (b : KeepsMarks t u) : KeepsMarks s u := by
  obtain ⟨⟨h, v, w⟩, note⟩ := a
  obtain ⟨⟨h', v', w'⟩, note'⟩ := b
  exact ⟨⟨fun i => h' i ∘ h i, fun i => v' i ∘ v i, fun i => w' i ∘ w i⟩, fun r => note' r ∘ note r⟩

theorem SameData.keepsMarks {s t : State} (same : SameData s t) : KeepsMarks s t := by
  obtain ⟨h, v, w, -, -, note⟩ := same
  refine ⟨⟨?_, ?_, ?_⟩, ?_⟩
  · rw [h]; exact fun _ => id
  · rw [v]; exact fun _ => id
  · rw [w]; exact fun _ => id
  · rw [note]; exact fun _ => id

/-- A write of H keeps marks if the array written does. -/
theorem KeepsMarks.setH {s t : State} (a : KeepsMarks s t) (xs : Vector MarkedWord 8)
    (kept : ∀ i, definedAt t.h i → definedAt xs i) : KeepsMarks s { t with h := xs } :=
  a.trans ⟨⟨kept, fun _ => id, fun _ => id⟩, fun _ => id⟩

theorem KeepsMarks.setV {s t : State} (a : KeepsMarks s t) (xs : Vector MarkedWord 8)
    (kept : ∀ i, definedAt t.v i → definedAt xs i) : KeepsMarks s { t with v := xs } :=
  a.trans ⟨⟨fun _ => id, kept, fun _ => id⟩, fun _ => id⟩

theorem KeepsMarks.setW {s t : State} (a : KeepsMarks s t) (xs : Vector MarkedWord 64)
    (kept : ∀ i, definedAt t.w i → definedAt xs i) : KeepsMarks s { t with w := xs } :=
  a.trans ⟨⟨fun _ => id, fun _ => id, kept⟩, fun _ => id⟩

/-- Noting reads keeps an earlier note (R366). -/
theorem KeepsMarks.noteReads {s t : State} (a : KeepsMarks s t) {n : Nat} (bank : Bank) (xs : Vector MarkedWord n)
    (reads : List Nat) : KeepsMarks s (noteReads bank xs reads t) :=
  a.trans ⟨⟨fun _ => id, fun _ => id, fun _ => id⟩, fun read noted => by simp [noted]⟩

theorem loadBlockUpdate_keepsMarks (b : Block) (s : State) : KeepsMarks s (loadBlockUpdate b s) :=
  (KeepsMarks.refl s).setW _ (definedAt_writeBlock s.w b)

theorem expandUpdate_keepsMarks (i : Nat) (s : State) : KeepsMarks s (expandUpdate i s) :=
  ((KeepsMarks.refl s).noteReads .W s.w _).setW _ fun j => definedAt_writeWord s.w i j _

theorem loadVUpdate_keepsMarks (s : State) : KeepsMarks s (loadVUpdate s) :=
  ((KeepsMarks.refl s).noteReads .H s.h _).setV _ fun j => definedAt_definedWords s.v _ j

theorem roundUpdate_keepsMarks (i : Nat) (s : State) : KeepsMarks s (roundUpdate i s) :=
  (((KeepsMarks.refl s).noteReads .V s.v _).noteReads .W s.w _).setV _ fun j => definedAt_definedWords s.v _ j

theorem accumUpdate_keepsMarks (s : State) : KeepsMarks s (accumUpdate s) :=
  (((KeepsMarks.refl s).noteReads .H s.h _).noteReads .V s.v _).setH _ fun j => definedAt_definedWords s.h _ j

theorem expandAllUpdate_keepsMarks (s : State) : KeepsMarks s (expandAllUpdate s) :=
  forIndexes_keeps expandUpdate KeepsMarks .refl (fun _ _ _ => .trans) expandUpdate_keepsMarks _ s

theorem roundsAllUpdate_keepsMarks (s : State) : KeepsMarks s (roundsAllUpdate s) :=
  forIndexes_keeps roundUpdate KeepsMarks .refl (fun _ _ _ => .trans) roundUpdate_keepsMarks _ s

theorem compressUpdate_keepsMarks (b : Block) (s : State) : KeepsMarks s (compressUpdate b s) :=
  ((((loadBlockUpdate_keepsMarks b s).trans (expandAllUpdate_keepsMarks _)).trans (loadVUpdate_keepsMarks _)).trans
    (roundsAllUpdate_keepsMarks _)).trans (accumUpdate_keepsMarks _)

/-- No effect clears a mark or takes back a note. -/
theorem effectOf_keepsMarks (i : Instr) (s : State) : KeepsMarks s (effectOf i s).1 := by
  cases i with
  | init => exact (KeepsMarks.refl s).setH _ fun j => definedAt_definedWords s.h _ j
  | writeH index x => exact (KeepsMarks.refl s).setH _ fun j => definedAt_writeWord s.h _ j x
  | writeV index x => exact (KeepsMarks.refl s).setV _ fun j => definedAt_writeWord s.v _ j x
  | writeW index x => exact (KeepsMarks.refl s).setW _ fun j => definedAt_writeWord s.w _ j x
  | readH index => exact (KeepsMarks.refl s).noteReads .H s.h _
  | readV index => exact (KeepsMarks.refl s).noteReads .V s.v _
  | readW index => exact (KeepsMarks.refl s).noteReads .W s.w _
  | loadBlock b => exact loadBlockUpdate_keepsMarks b s
  | expandStep index => exact expandUpdate_keepsMarks _ s
  | expandAll => exact expandAllUpdate_keepsMarks s
  | loadV => exact loadVUpdate_keepsMarks s
  | round index => exact roundUpdate_keepsMarks _ s
  | roundsAll => exact roundsAllUpdate_keepsMarks s
  | accum => exact accumUpdate_keepsMarks s
  | compressBlock b => exact compressUpdate_keepsMarks b s
  | _ => exact KeepsMarks.refl s

/-- Settles O21: a step without a reset has an instruction's effect on the marks and the note, or none. -/
theorem definedWordsStayDefined : Obligations.DefinedWordsStayDefined := by
  intro s t next noReset
  suffices kept : KeepsMarks s t from ⟨kept.marks, kept.note⟩
  obtain ⟨rest, waiting, -⟩ | same | ⟨i, rest, same⟩ := step_data s t next
  · simp [waiting] at noReset
  · exact same.keepsMarks
  · have taken : KeepsMarks s { s with inbox := rest } := SameData.keepsMarks ⟨rfl, rfl, rfl, rfl, rfl, rfl⟩
    exact (taken.trans (effectOf_keepsMarks i _)).trans same.keepsMarks

/-! ### Reads of undefined words -/

/-- A read of an undefined word, made in a run without one, stops the spec's model and is named (R366). -/
theorem stopAtUndefinedRead_finish_readEffect {n : Nat} (bank : Bank) (xs : Vector MarkedWord n) (i : Nat) (s : State)
    (unnoted : s.undefinedRead = none) (clear : undefinedAt xs i) :
    stopAtUndefinedRead (finish (readEffect bank xs i s)) = .fault ⟨bank, i⟩ := by
  apply stopAtUndefinedRead_of_some
  simp [readEffect, unnoted, firstUndefined_cons, isDefined_of_clear xs i clear]

/-- An index from 0 to `hi` is in the range that starts at 0. -/
theorem indexWithin_of_lt (hi : Nat) (arg : BitVec 8) (inside : arg.toNat < hi + 1) : indexWithin 0 hi arg = true := by
  simp only [indexWithin, Bool.and_eq_true, decide_eq_true_eq]
  omega

/-- Settles O34: an undefined word lies inside its array, so the read passes its index check and is made. -/
theorem readsNameUndefinedWords : Obligations.ReadsNameUndefinedWords := by
  intro s index unlocked unnoted
  refine ⟨fun clear => ?_, fun clear => ?_, fun clear => ?_⟩
  · rw [exec_unlocked (.readH index) s unlocked (indexWithin_of_lt 7 index (lt_of_mark _ _ _ clear))]
    exact stopAtUndefinedRead_finish_readEffect .H s.h _ s unnoted clear
  · rw [exec_unlocked (.readV index) s unlocked (indexWithin_of_lt 7 index (lt_of_mark _ _ _ clear))]
    exact stopAtUndefinedRead_finish_readEffect .V s.v _ s unnoted clear
  · rw [exec_unlocked (.readW index) s unlocked (indexWithin_of_lt 63 index (lt_of_mark _ _ _ clear))]
    exact stopAtUndefinedRead_finish_readEffect .W s.w _ s unnoted clear

end Sys2Proof.Proofs
end

section
/-! PROOFS. Noninterference (spec R43, R366): what an undefined word holds is never seen in the spec's model. The idea:
a value can only be taken over by a read, each read is noted first, and the notes depend on the marks alone. -/

namespace Sys2Proof.Proofs

open Sys2Proof.Machine Sys2Proof.Safety

/-! ### Arrays that differ only where they are undefined -/

section
variable {n : Nat} {xs ys : Vector MarkedWord n}

theorem sameWhereDefined_refl (xs : Vector MarkedWord n) : SameWhereDefined xs xs := fun _ => ⟨rfl, fun _ => rfl⟩

theorem isDefined_congr (same : SameWhereDefined xs ys) (i : Nat) : isDefined xs i = isDefined ys i := by
  by_cases inside : i < n
  · simpa [isDefined, inside] using (same ⟨i, inside⟩).1
  · simp [isDefined, inside]

theorem firstUndefined_congr (same : SameWhereDefined xs ys) (bank : Bank) (reads : List Nat) :
    firstUndefined bank xs reads = firstUndefined bank ys reads := by
  simp only [firstUndefined, isDefined_congr same]

/-- A read of a defined word gives the same in both. -/
theorem valueAt_congr (same : SameWhereDefined xs ys) (i : Nat) (set : isDefined xs i = true) :
    valueAt xs i = valueAt ys i := by
  by_cases inside : i < n
  · have mark : xs[i].defined = true := by simpa [isDefined, inside] using set
    simpa [valueAt, inside] using (same ⟨i, inside⟩).2 mark
  · simp [valueAt, inside]

/-- A read of a whole array, all of it defined, gives the same in both. -/
theorem valuesOf_congr (same : SameWhereDefined xs ys) (set : ∀ i ∈ List.range n, isDefined xs i = true) :
    valuesOf xs = valuesOf ys := by
  apply Vector.ext
  intro i inside
  have mark : xs[i].defined = true := by simpa [isDefined, inside] using set i (List.mem_range.mpr inside)
  simpa using (same ⟨i, inside⟩).2 mark

theorem sameWhereDefined_writeWord (same : SameWhereDefined xs ys) (i : Nat) (x : Word) :
    SameWhereDefined (writeWord xs i x) (writeWord ys i x) := by
  intro j
  simp only [writeWord, Fin.getElem_fin, Vector.getElem_setIfInBounds]
  split
  · exact ⟨rfl, fun _ => rfl⟩
  · exact same j

end

theorem getElem_writeBlock (xs : Vector MarkedWord 64) (b : Block) (j : Nat) (inside : j < 64) :
    (writeBlock xs b)[j] = if low : j < 16 then definedWord b[j] else xs[j] := by
  apply Option.some_inj.mp
  rw [← Vector.getElem?_eq_getElem inside]
  split
  · next low => rw [getElem?_writeBlock_low xs b j low, Vector.getElem?_eq_getElem low, Option.map_some]
  · next high => rw [getElem?_writeBlock_high xs b j (by omega), Vector.getElem?_eq_getElem inside]

theorem sameWhereDefined_writeBlock {xs ys : Vector MarkedWord 64} (same : SameWhereDefined xs ys) (b : Block) :
    SameWhereDefined (writeBlock xs b) (writeBlock ys b) := by
  intro j
  simp only [Fin.getElem_fin, getElem_writeBlock]
  split
  · exact ⟨rfl, fun _ => rfl⟩
  · exact same j

/-! ### States that look the same until an undefined word is read -/

/-- The two states carry the same note of an undefined read, and without one they differ only in the values of undefined
words. Once a read is noted the spec's model has stopped, so nothing more is asked of them. -/
structure SameSeen (s t : State) : Prop where
  note : s.undefinedRead = t.undefinedRead
  visible : s.undefinedRead = none → SameVisible s t

theorem SameSeen.of_visible {s t : State} (same : SameVisible s t) : SameSeen s t := by
  refine ⟨?_, fun _ => same⟩
  obtain ⟨-, -, -, -, -, -, -, -, note, -⟩ := same
  exact note

/-- No note after some reads: there was none before, and every word read is defined. -/
theorem noteReads_undefinedRead_eq_none {n : Nat} (bank : Bank) (xs : Vector MarkedWord n) (reads : List Nat)
    (s : State) :
    (noteReads bank xs reads s).undefinedRead = none ↔
      s.undefinedRead = none ∧ ∀ i ∈ reads, isDefined xs i = true := by
  rw [noteReads_undefinedRead, Option.or_eq_none_iff, firstUndefined_eq_none_iff]

theorem SameSeen.noteReads {s t : State} (same : SameSeen s t) {n : Nat} {xs ys : Vector MarkedWord n} (bank : Bank)
    (reads : List Nat) (arrays : s.undefinedRead = none → SameWhereDefined xs ys) :
    SameSeen (noteReads bank xs reads s) (noteReads bank ys reads t) := by
  have note :
      (Machine.noteReads bank xs reads s).undefinedRead = (Machine.noteReads bank ys reads t).undefinedRead := by
    rw [noteReads_undefinedRead, noteReads_undefinedRead, ← same.note]
    cases unnoted : s.undefinedRead with
    | none => rw [firstUndefined_congr (arrays unnoted)]
    | some read => rfl
  refine ⟨note, fun clean => ?_⟩
  obtain ⟨unnoted, -⟩ := (noteReads_undefinedRead_eq_none bank xs reads s).mp clean
  obtain ⟨h, v, w, k, iv, err, errCode, errInfo, -, rest⟩ := same.visible unnoted
  exact ⟨h, v, w, k, iv, err, errCode, errInfo, note, rest⟩

theorem SameSeen.setH {s t : State} (same : SameSeen s t) {xs ys : Vector MarkedWord 8}
    (arrays : s.undefinedRead = none → SameWhereDefined xs ys) : SameSeen { s with h := xs } { t with h := ys } := by
  refine ⟨same.note, fun clean => ?_⟩
  obtain ⟨-, rest⟩ := same.visible clean
  exact ⟨arrays clean, rest⟩

theorem SameSeen.setV {s t : State} (same : SameSeen s t) {xs ys : Vector MarkedWord 8}
    (arrays : s.undefinedRead = none → SameWhereDefined xs ys) : SameSeen { s with v := xs } { t with v := ys } := by
  refine ⟨same.note, fun clean => ?_⟩
  obtain ⟨h, -, rest⟩ := same.visible clean
  exact ⟨h, arrays clean, rest⟩

theorem SameSeen.setW {s t : State} (same : SameSeen s t) {xs ys : Vector MarkedWord 64}
    (arrays : s.undefinedRead = none → SameWhereDefined xs ys) : SameSeen { s with w := xs } { t with w := ys } := by
  refine ⟨same.note, fun clean => ?_⟩
  obtain ⟨h, v, -, rest⟩ := same.visible clean
  exact ⟨h, v, arrays clean, rest⟩

theorem SameSeen.respond {s t : State} (same : SameSeen s t) {r q : Response}
    (answers : s.undefinedRead = none → r = q) : SameSeen (respond r s) (respond q t) := by
  refine ⟨same.note, fun clean => ?_⟩
  obtain ⟨h, v, w, k, iv, err, errCode, errInfo, note, resets, inbox, responses⟩ := same.visible clean
  refine ⟨h, v, w, k, iv, err, errCode, errInfo, note, resets, inbox, ?_⟩
  simp only [respond_responses, answers clean, responses]

/-! ### Updates keep it -/

theorem loadBlockUpdate_sameSeen {s t : State} (b : Block) (same : SameSeen s t) :
    SameSeen (loadBlockUpdate b s) (loadBlockUpdate b t) :=
  same.setW fun clean => by
    obtain ⟨-, -, w, -⟩ := same.visible clean
    exact sameWhereDefined_writeBlock w b

/-- EXPAND_STEP reads four words of W, all of them noted. -/
theorem expandUpdate_sameSeen {s t : State} (i : Nat) (same : SameSeen s t) :
    SameSeen (expandUpdate i s) (expandUpdate i t) := by
  have arrays : s.undefinedRead = none → SameWhereDefined s.w t.w := fun clean => by
    obtain ⟨-, -, w, -⟩ := same.visible clean
    exact w
  refine (same.noteReads .W [i - 16, i - 15, i - 7, i - 2] arrays).setW fun clean => ?_
  obtain ⟨unnoted, set⟩ := (noteReads_undefinedRead_eq_none _ _ _ _).mp clean
  have w := arrays unnoted
  rw [valueAt_congr w (i - 16) (set _ (by simp)), valueAt_congr w (i - 15) (set _ (by simp)),
    valueAt_congr w (i - 7) (set _ (by simp)), valueAt_congr w (i - 2) (set _ (by simp))]
  exact sameWhereDefined_writeWord w i _

/-- LOAD_V reads all of H. -/
theorem loadVUpdate_sameSeen {s t : State} (same : SameSeen s t) : SameSeen (loadVUpdate s) (loadVUpdate t) := by
  have arrays : s.undefinedRead = none → SameWhereDefined s.h t.h := fun clean => by
    obtain ⟨h, -⟩ := same.visible clean
    exact h
  refine (same.noteReads .H (List.range Config.hashWords) arrays).setV fun clean => ?_
  obtain ⟨unnoted, set⟩ := (noteReads_undefinedRead_eq_none _ _ _ _).mp clean
  rw [valuesOf_congr (arrays unnoted) set]
  exact sameWhereDefined_refl _

/-- ROUND reads all of V and one word of W. -/
theorem roundUpdate_sameSeen {s t : State} (i : Nat) (same : SameSeen s t) :
    SameSeen (roundUpdate i s) (roundUpdate i t) := by
  have readV := same.noteReads .V (List.range Config.hashWords) fun clean => by
    obtain ⟨-, v, -⟩ := same.visible clean
    exact v
  have readW := readV.noteReads .W [i] fun clean => by
    obtain ⟨-, -, w, -⟩ := readV.visible clean
    exact w
  refine readW.setV fun clean => ?_
  obtain ⟨clean, setW⟩ := (noteReads_undefinedRead_eq_none _ _ _ _).mp clean
  obtain ⟨unnoted, setV⟩ := (noteReads_undefinedRead_eq_none _ _ _ _).mp clean
  obtain ⟨-, v, w, k, -⟩ := same.visible unnoted
  rw [valuesOf_congr v setV, valueAt_congr w i (setW i (by simp)), k]
  exact sameWhereDefined_refl _

/-- ACCUM reads all of H and all of V. -/
theorem accumUpdate_sameSeen {s t : State} (same : SameSeen s t) : SameSeen (accumUpdate s) (accumUpdate t) := by
  have readH := same.noteReads .H (List.range Config.hashWords) fun clean => by
    obtain ⟨h, -⟩ := same.visible clean
    exact h
  have readV := readH.noteReads .V (List.range Config.hashWords) fun clean => by
    obtain ⟨-, v, -⟩ := readH.visible clean
    exact v
  refine readV.setH fun clean => ?_
  obtain ⟨clean, setV⟩ := (noteReads_undefinedRead_eq_none _ _ _ _).mp clean
  obtain ⟨unnoted, setH⟩ := (noteReads_undefinedRead_eq_none _ _ _ _).mp clean
  obtain ⟨h, v, -⟩ := same.visible unnoted
  rw [valuesOf_congr h setH, valuesOf_congr v setV]
  exact sameWhereDefined_refl _

/-- A loop keeps it if each pass does. -/
theorem forIndexes_sameSeen {f : Nat → State → State}
    (pass : ∀ {s t : State} (i : Nat), SameSeen s t → SameSeen (f i s) (f i t)) {s t : State} (is : List Nat)
    (same : SameSeen s t) : SameSeen (forIndexes f is s) (forIndexes f is t) := by
  induction is generalizing s t with
  | nil => exact same
  | cons i is ih => exact ih (pass i same)

theorem expandAllUpdate_sameSeen {s t : State} (same : SameSeen s t) :
    SameSeen (expandAllUpdate s) (expandAllUpdate t) :=
  forIndexes_sameSeen expandUpdate_sameSeen _ same

theorem roundsAllUpdate_sameSeen {s t : State} (same : SameSeen s t) :
    SameSeen (roundsAllUpdate s) (roundsAllUpdate t) :=
  forIndexes_sameSeen roundUpdate_sameSeen _ same

theorem compressUpdate_sameSeen {s t : State} (b : Block) (same : SameSeen s t) :
    SameSeen (compressUpdate b s) (compressUpdate b t) :=
  accumUpdate_sameSeen (roundsAllUpdate_sameSeen (loadVUpdate_sameSeen (expandAllUpdate_sameSeen
    (loadBlockUpdate_sameSeen b same))))

/-! ### Instructions and steps keep it -/

theorem effectOf_sameSeen {s t : State} (i : Instr) (same : SameVisible s t) :
    SameSeen (effectOf i s).1 (effectOf i t).1 := by
  have seen := SameSeen.of_visible same
  obtain ⟨h, v, w, k, iv, -⟩ := same
  cases i with
  | init => exact seen.setH fun _ => iv ▸ sameWhereDefined_refl (definedWords s.iv)
  | writeH index x => exact seen.setH fun _ => sameWhereDefined_writeWord h _ x
  | writeV index x => exact seen.setV fun _ => sameWhereDefined_writeWord v _ x
  | writeW index x => exact seen.setW fun _ => sameWhereDefined_writeWord w _ x
  | readH index => exact seen.noteReads .H _ fun _ => h
  | readV index => exact seen.noteReads .V _ fun _ => v
  | readW index => exact seen.noteReads .W _ fun _ => w
  | loadBlock b => exact loadBlockUpdate_sameSeen b seen
  | expandStep index => exact expandUpdate_sameSeen _ seen
  | expandAll => exact expandAllUpdate_sameSeen seen
  | loadV => exact loadVUpdate_sameSeen seen
  | round index => exact roundUpdate_sameSeen _ seen
  | roundsAll => exact roundsAllUpdate_sameSeen seen
  | accum => exact accumUpdate_sameSeen seen
  | compressBlock b => exact compressUpdate_sameSeen b seen
  | _ => exact seen

/-- A read that leaves no note has met a defined word, so both states answer it alike. -/
theorem readEffect_results_congr {s t : State} {n : Nat} {xs ys : Vector MarkedWord n} (bank : Bank) (i : Nat)
    (same : SameWhereDefined xs ys) (clean : (readEffect bank xs i s).1.undefinedRead = none) :
    (readEffect bank xs i s).2 = (readEffect bank ys i t).2 := by
  obtain ⟨-, set⟩ := (noteReads_undefinedRead_eq_none _ _ _ _).mp clean
  simp only [readEffect, valueAt_congr same i (set i (by simp))]

theorem effectOf_results_congr {s t : State} (i : Instr) (same : SameVisible s t)
    (clean : (effectOf i s).1.undefinedRead = none) : (effectOf i s).2 = (effectOf i t).2 := by
  obtain ⟨h, v, w, k, iv, err, errCode, errInfo, -⟩ := same
  cases i with
  | readH index => exact readEffect_results_congr .H _ h clean
  | readV index => exact readEffect_results_congr .V _ v clean
  | readW index => exact readEffect_results_congr .W _ w clean
  | readK index => simp only [effectOf, k]
  | readIv index => simp only [effectOf, iv]
  | readStatus => simp only [effectOf, statusWord, err, errCode]
  | readErrinfo => simp only [effectOf, errInfo]
  | _ => rfl

/-- Both outcomes are next states that look the same until an undefined word is read. -/
def SameAnswer (o p : StepOutcome) : Prop := ∃ s t, o = .next s ∧ p = .next t ∧ SameSeen s t

theorem raiseError_sameAnswer {s t : State} (c : ErrorCode) (cmd : Word) (same : SameVisible s t) :
    SameAnswer (raiseError c cmd s) (raiseError c cmd t) := by
  refine ⟨_, _, rfl, rfl, SameSeen.respond (.of_visible ?_) fun _ => rfl⟩
  obtain ⟨h, v, w, k, iv, err, errCode, errInfo, rest⟩ := same
  by_cases first : c ≠ .locked ∧ s.err = false
  · rw [recordError_first s c cmd first.2 first.1, recordError_first t c cmd (err ▸ first.2) first.1]
    exact ⟨h, v, w, k, iv, rfl, rfl, rfl, rest⟩
  · rw [recordError, recordError, ← err, if_neg first, if_neg first]
    exact ⟨h, v, w, k, iv, err, errCode, errInfo, rest⟩

theorem exec_sameAnswer {s t : State} (i : Instr) (same : SameVisible s t) : SameAnswer (exec i s) (exec i t) := by
  have err : s.err = t.err := by
    obtain ⟨-, -, -, -, -, err, -⟩ := same
    exact err
  rw [exec_eq, exec_eq, ← err]
  split
  · exact raiseError_sameAnswer .locked _ same
  · split
    · refine ⟨_, _, rfl, rfl, (effectOf_sameSeen i same).respond fun clean => ?_⟩
      rw [effectOf_results_congr i same clean]
    · exact raiseError_sameAnswer .indexRange _ same

theorem transact_sameAnswer {s t : State} (r : Request) (same : SameVisible s t) :
    SameAnswer (transact r s) (transact r t) := by
  have checks : acceptRequest r s = acceptRequest r t := by
    obtain ⟨-, -, -, -, -, err, -⟩ := same
    rw [acceptRequest, acceptRequest, lockedOut, lockedOut, err]
  rw [transact, transact, ← checks]
  cases acceptRequest r s with
  | error c => exact raiseError_sameAnswer c r.cmd same
  | ok i => exact exec_sameAnswer i same

theorem hostReset_sameVisible {s t : State} (same : SameVisible s t) : SameVisible (hostReset s) (hostReset t) := by
  obtain ⟨-, -, -, k, iv, -, -, -, -, resets, inbox, responses⟩ := same
  have equal : hostReset s = hostReset t := by rw [hostReset, hostReset, k, iv, resets, inbox, responses]
  rw [equal]
  exact ⟨sameWhereDefined_refl _, sameWhereDefined_refl _, sameWhereDefined_refl _, rfl, rfl, rfl, rfl, rfl, rfl, rfl,
    rfl, rfl⟩

theorem step_sameAnswer {s t : State} (same : SameVisible s t) : SameAnswer (step s) (step t) := by
  obtain ⟨h, v, w, k, iv, err, errCode, errInfo, note, resets, inbox, responses⟩ := id same
  have taken : ∀ rest, SameVisible { s with inbox := rest } { t with inbox := rest } := fun rest =>
    ⟨h, v, w, k, iv, err, errCode, errInfo, note, resets, rfl, responses⟩
  rw [step, step, takeAction, takeAction, ← inbox]
  cases s.inbox with
  | nil => exact ⟨s, t, rfl, rfl, .of_visible same⟩
  | cons action rest =>
    cases action with
    | reset => exact ⟨_, _, rfl, rfl, .of_visible (hostReset_sameVisible (taken rest))⟩
    | request r => exact transact_sameAnswer r (taken rest)

/-- Settles O22: the machine's two answers look the same until an undefined word is read, and where one has been read
the spec's model shows only the note, which is the same in both. -/
theorem undefinedValuesAreNeverSeen : Obligations.UndefinedValuesAreNeverSeen := by
  intro s t same
  obtain ⟨s', t', nextS, nextT, seen⟩ := step_sameAnswer same
  rw [modelStep, modelStep, nextS, nextT]
  cases noted : s'.undefinedRead with
  | none =>
    rw [stopAtUndefinedRead_of_none s' noted, stopAtUndefinedRead_of_none t' (seen.note ▸ noted)]
    exact seen.visible noted
  | some read =>
    rw [stopAtUndefinedRead_of_some s' read noted, stopAtUndefinedRead_of_some t' read (seen.note ▸ noted)]

end Sys2Proof.Proofs
end

section
/-! PROOFS. Steps and observations (spec R72, R73, R362, R413): a request that decodes runs as its instruction, locked or
not, and an instruction that only observes is answered twice alike. The idea of both: whether an instruction is locked
out is read off the OP it decodes from and off ERR, and no observation changes ERR. -/

namespace Sys2Proof.Proofs

open Sys2Proof.Machine Sys2Proof.Safety

/-! ### What an instruction answers, the lockout apart -/

/-- The locked engine accepts only the two status reads, and refuses every other instruction (R364). -/
abbrev Refused (i : Instr) (s : State) : Prop := s.err = true ∧ i ≠ .readStatus ∧ i ≠ .readErrinfo

theorem exec_refused (i : Instr) (s : State) (refused : Refused i s) :
    exec i s = .next (respond (.nak 0x05) s) := by
  rw [exec_eq, if_pos refused, raiseError_locked, respond]

theorem exec_accepted (i : Instr) (s : State) (accepted : ¬ Refused i s) (ok : i.wellFormed = true) :
    exec i s = finish (effectOf i s) := by
  rw [exec_eq, if_neg accepted, if_pos ok]

/-! ### A step runs the decoded instruction -/

/-- Each arm of the opcode map builds an instruction of its own OP (R105). -/
theorem build_op (op arg : BitVec 8) (ops : List Word) (i : Instr) (built : build op arg ops = some i) : i.op = op := by
  apply BitVec.eq_of_toNat_eq
  unfold build at built
  split at built
  case h_1 code | h_3 code | h_5 code | h_7 code | h_8 code | h_9 code | h_10 code | h_11 code | h_13 code | h_14 code |
      h_15 code | h_16 code | h_17 code | h_18 code =>
    obtain ⟨-, rfl⟩ := nullary_eq_some _ _ _ built
    exact code.symm
  case h_2 code | h_4 code | h_6 code | h_20 code | h_21 code | h_22 code | h_28 code | h_29 code | h_30 code |
      h_31 code =>
    obtain ⟨x, -, rfl⟩ := unary_eq_some _ _ _ built
    exact code.symm
  case h_23 code | h_24 code | h_25 code =>
    obtain ⟨x, y, -, rfl⟩ := binary_eq_some _ _ _ built
    exact code.symm
  case h_26 code | h_27 code =>
    obtain ⟨x, y, z, -, rfl⟩ := ternary_eq_some _ _ _ built
    exact code.symm
  case h_12 code | h_19 code =>
    obtain ⟨b, -, rfl⟩ := blockary_eq_some _ _ _ built
    exact code.symm
  case h_32 => cases built

/-- A request that decodes carries the OP of its instruction (R101, R109). -/
theorem opField_of_decode (r : Request) (i : Instr) (decoded : decode r = .ok i) : opField r.cmd = i.op := by
  obtain ⟨row, -, -, -, built⟩ := decode_eq_ok r i decoded
  exact (build_op _ _ _ i built).symm

/-- The two OPs of R364 are those of the status reads and of no other instruction. -/
theorem acceptedWhileLocked_op (i : Instr) :
    acceptedWhileLocked i.op = true ↔ i = .readStatus ∨ i = .readErrinfo := by
  cases i <;> simp [acceptedWhileLocked, Instr.op]

/-- Check 1 of R362, made on the OP of a request that decodes, is the check its instruction makes itself. -/
theorem lockedOut_iff_refused (r : Request) (i : Instr) (s : State) (decoded : decode r = .ok i) :
    lockedOut s (opField r.cmd) = true ↔ Refused i s := by
  rw [opField_of_decode r i decoded, lockedOut, Bool.and_eq_true, Bool.not_eq_true', ← Bool.not_eq_true,
    acceptedWhileLocked_op, not_or]

/-- The transaction of a request that decodes is `exec` of its instruction: a lockout records nothing, so it does not
matter which of the two checks finds it. -/
theorem transact_of_decode (r : Request) (i : Instr) (s : State) (decoded : decode r = .ok i) :
    transact r s = exec i s := by
  have sameCheck := lockedOut_iff_refused r i s decoded
  by_cases refused : Refused i s
  · rw [transact, acceptRequest, if_pos (sameCheck.mpr refused), exec_refused i s refused]
    exact raiseError_locked r.cmd s
  · rw [transact, acceptRequest, if_neg (mt sameCheck.mp refused), decoded]

/-- A step whose next host action is a request is that request's transaction (R72). -/
theorem step_of_request (s : State) (r : Request) (rest : List HostAction) (waiting : s.inbox = .request r :: rest) :
    step s = transact r { s with inbox := rest } := by
  rw [step, takeAction, waiting]

/-- Settles O6: the request's transaction is `exec` of the instruction it decodes to, in a locked engine too. -/
theorem stepRunsTheDecodedInstruction : Obligations.StepRunsTheDecodedInstruction := by
  intro s r rest waiting
  have taken := step_of_request s r rest waiting
  exact ⟨taken, fun i decoded => taken.trans (transact_of_decode r i _ decoded)⟩

/-! ### Observations -/

/-- Making the same reads again adds nothing to the note (R366). -/
theorem noteReads_noteReads {n : Nat} (bank : Bank) (xs : Vector MarkedWord n) (reads : List Nat) (s : State) :
    noteReads bank xs reads (noteReads bank xs reads s) = noteReads bank xs reads s := by
  simp only [noteReads, Option.or_assoc, Option.or_self]

/-- A read made again after its response changes nothing and gives the same word (R73). -/
theorem readEffect_again {n : Nat} (bank : Bank) (xs : Vector MarkedWord n) (i : Nat) (r : Response) (s : State) :
    readEffect bank xs i (respond r (readEffect bank xs i s).1) =
      (respond r (readEffect bank xs i s).1, (readEffect bank xs i s).2) :=
  congrArg (fun noted => (respond r noted, [valueAt xs i])) (noteReads_noteReads bank xs [i] s)

/-- The effect of `i` changes at most the note, and made again after its response it changes nothing and has the same
results (R73, R413). -/
structure OnlyObserves (i : Instr) (s : State) : Prop where
  frame : (effectOf i s).1 = { s with undefinedRead := (effectOf i s).1.undefinedRead }
  again : ∀ r, effectOf i (respond r (effectOf i s).1) = (respond r (effectOf i s).1, (effectOf i s).2)

/-- Only the reads of H, V and W note anything; the other observations leave the state as it is. -/
theorem effectOf_onlyObserves (i : Instr) (s : State) (observing : observes i = true) : OnlyObserves i s := by
  cases i with
  | init | writeH | writeV | writeW | loadBlock | expandStep | expandAll | loadV | round | roundsAll | accum
  | compressBlock => cases observing
  | readH index => exact ⟨rfl, fun r => readEffect_again .H s.h _ r s⟩
  | readV index => exact ⟨rfl, fun r => readEffect_again .V s.v _ r s⟩
  | readW index => exact ⟨rfl, fun r => readEffect_again .W s.w _ r s⟩
  | _ => exact ⟨rfl, fun _ => rfl⟩

/-- Settles O23: ERR is left alone, so an observation is refused both times or made both times, and made again it finds
its own note. -/
theorem observationChangesNothing : Obligations.ObservationChangesNothing := by
  intro i s t observing ok next
  by_cases refused : Refused i s
  · rw [exec_refused i s refused] at next
    cases next
    have refusedAgain : Refused i (respond (.nak 0x05) s) := refused
    refine ⟨rfl, fun u again => ?_⟩
    rw [exec_refused i _ refusedAgain] at again
    cases again
    exact ⟨rfl, rfl⟩
  · rw [exec_accepted i s refused ok] at next
    cases next
    have observation := effectOf_onlyObserves i s observing
    have acceptedAgain : ¬ Refused i (respond (.ack (effectOf i s).2) (effectOf i s).1) := by
      rwa [Refused, respond_err, (effectOf_keeps i s).err]
    refine ⟨?_, fun u again => ?_⟩
    · rw [respond_responses, (effectOf_keeps i s).responses]
      exact congrArg (respond (.ack (effectOf i s).2)) observation.frame
    · rw [exec_accepted i _ acceptedAgain ok, observation.again] at again
      cases again
      exact ⟨rfl, rfl⟩

end Sys2Proof.Proofs
end

section
/-! PROOFS. Decoding and encoding are inverse (spec R101 to R107). The idea: `build` reads an instruction's fields back, and
the reserved-bits check leaves no bit of ARG that an instruction does not carry. -/

namespace Sys2Proof.Proofs

open Sys2Proof.Machine Sys2Proof.Safety

/-! ### Decoding inverts encoding -/

/-- What an encoding passes, for every instruction. -/
theorem encodes : ∀ i : Instr, Laws.Encodes.Statement i
  | .init => Laws.Encodes.init
  | .writeH index x => Laws.Encodes.writeH index x
  | .readH index => Laws.Encodes.readH index
  | .writeV index x => Laws.Encodes.writeV index x
  | .readV index => Laws.Encodes.readV index
  | .writeW index x => Laws.Encodes.writeW index x
  | .readW index => Laws.Encodes.readW index
  | .readK index => Laws.Encodes.readK index
  | .readIv index => Laws.Encodes.readIv index
  | .readStatus => Laws.Encodes.readStatus
  | .readErrinfo => Laws.Encodes.readErrinfo
  | .loadBlock block => Laws.Encodes.loadBlock block
  | .expandStep index => Laws.Encodes.expandStep index
  | .expandAll => Laws.Encodes.expandAll
  | .loadV => Laws.Encodes.loadV
  | .round index => Laws.Encodes.round index
  | .roundsAll => Laws.Encodes.roundsAll
  | .accum => Laws.Encodes.accum
  | .compressBlock block => Laws.Encodes.compressBlock block
  | .rotr amount x => Laws.Encodes.rotr amount x
  | .shr amount x => Laws.Encodes.shr amount x
  | .not x => Laws.Encodes.not x
  | .and x y => Laws.Encodes.and x y
  | .xor x y => Laws.Encodes.xor x y
  | .add x y => Laws.Encodes.add x y
  | .ch x y z => Laws.Encodes.ch x y z
  | .maj x y z => Laws.Encodes.maj x y z
  | .bsig0 x => Laws.Encodes.bsig0 x
  | .bsig1 x => Laws.Encodes.bsig1 x
  | .ssig0 x => Laws.Encodes.ssig0 x
  | .ssig1 x => Laws.Encodes.ssig1 x

/-- An instruction is built from its own OP, ARG and operand words (R102, R105). -/
theorem build_fields (i : Instr) : build i.op i.arg i.operands = some i := by
  cases i with
  | loadBlock b => exact blockary_toList b .loadBlock
  | compressBlock b => exact blockary_toList b .compressBlock
  | rotr n x => exact congrArg (fun m => some (Instr.rotr m x)) (amountField_setWidth n)
  | shr n x => exact congrArg (fun m => some (Instr.shr m x)) (amountField_setWidth n)
  | _ => rfl

/-- A request that passes checks 2, 3 and 4 of R362 decodes to what is built from its fields. -/
theorem decode_of_build (r : Request) (row : Row) (i : Instr) (found : rowOf (opField r.cmd) = some row)
    (clean : reservedBitsSet row.format r.cmd = false) (count : r.ops.length = row.operands)
    (built : build (opField r.cmd) (argField r.cmd) r.ops = some i) : decode r = .ok i := by
  simp [decode, found, clean, count, rowOf_op _ _ found, built]

/-- Settles O2: the encoding passes the checks of its row, and `build` reads the instruction's fields back. -/
theorem decodeOfEncode : Obligations.DecodeOfEncode := by
  intro i
  obtain ⟨row, found, -, clean, count, -⟩ := encodes i
  refine decode_of_build (encode i) row i found clean count ?_
  rw [encode, opField_cmdWord, argField_cmdWord, build_fields]

/-- Settles O1: each word is the encoding of the command it stands for. -/
theorem sampleWordsDecode : Obligations.SampleWordsDecode :=
  ⟨decodeOfEncode .init, decodeOfEncode (.writeW 15 0x00000018), decodeOfEncode (.readH 7), decodeOfEncode .readStatus,
    decodeOfEncode (.expandStep 63), decodeOfEncode (.round 5), decodeOfEncode .accum,
    decodeOfEncode (.rotr 7 0x12345678), decodeOfEncode (.ch 0xFFFFFFFF 0x12345678 0x9ABCDEF0),
    decodeOfEncode (.loadBlock (Vector.replicate 16 0x61616161))⟩

/-! ### Encoding inverts decoding -/

/-- What an instruction keeps of an ARG byte: nothing, the index, or the amount ARG[4:0] (R102). -/
def keptArg : Format → BitVec 8 → BitVec 8
  | .cmdN, _ => 0
  | .cmdI, arg => arg
  | .cmdA, arg => (amountField arg).setWidth 8

/-- With no reserved bit set, all of ARG is kept (R107). -/
theorem keptArg_of_clean (format : Format) (cmd : Word) (clean : reservedBitsSet format cmd = false) :
    keptArg format (argField cmd) = argField cmd := by
  cases format with
  | cmdN => exact (argField_of_clean cmd clean).symm
  | cmdI => rfl
  | cmdA => exact setWidth_amountField _ (amountReserved_of_clean cmd clean)

/-- The instruction built from fields has those operand words, and the ARG that its format keeps. -/
theorem fields_of_build (i : Instr) (row : Row) (arg : BitVec 8) (ops : List Word) (found : rowOf i.op = some row)
    (built : build i.op arg ops = some i) : i.arg = keptArg row.format arg ∧ i.operands = ops := by
  cases i with
  | init | readH | readV | readW | readK | readIv | readStatus | readErrinfo | expandStep | expandAll | loadV | round
  | roundsAll | accum =>
    obtain ⟨rfl, same⟩ := nullary_eq_some _ _ _ built
    cases found
    cases same
    exact ⟨rfl, rfl⟩
  | writeH | writeV | writeW | rotr | shr | not | bsig0 | bsig1 | ssig0 | ssig1 =>
    obtain ⟨x, rfl, same⟩ := unary_eq_some _ _ _ built
    cases found
    cases same
    exact ⟨rfl, rfl⟩
  | and | xor | add =>
    obtain ⟨x, y, rfl, same⟩ := binary_eq_some _ _ _ built
    cases found
    cases same
    exact ⟨rfl, rfl⟩
  | ch | maj =>
    obtain ⟨x, y, z, rfl, same⟩ := ternary_eq_some _ _ _ built
    cases found
    cases same
    exact ⟨rfl, rfl⟩
  | loadBlock | compressBlock =>
    obtain ⟨b, rfl, same⟩ := blockary_eq_some _ _ _ built
    cases found
    cases same
    exact ⟨rfl, rfl⟩

/-- Settles O3: OP and the operand words come back as they are, RSV is 0, and the reserved-bits check has left nothing in
ARG that the instruction does not keep. -/
theorem encodeOfDecode : Obligations.EncodeOfDecode := by
  intro r i decoded
  obtain ⟨row, found, clean, -, built⟩ := decode_eq_ok r i decoded
  have op : opField r.cmd = i.op := opField_of_decode r i decoded
  obtain ⟨arg, operands⟩ := fields_of_build i row _ _ (op ▸ found) (op ▸ built)
  rw [encode, operands, arg, keptArg_of_clean _ _ clean, ← op, cmdWord_fields _ (rsvField_of_clean _ _ clean)]

end Sys2Proof.Proofs
end

section
/-! PROOFS. The checks of R362 and the classification of R109 by opcode number (spec R103, R105 to R107, R362): which check a
request fails first is its NAK, and one that passes them all is performed. The idea: the opcode map agrees with the lists of
R105 on all 256 opcodes, so each check of the model is the check of the list. -/

namespace Sys2Proof.Proofs

open Sys2Proof.Machine Sys2Proof.Safety

/-! ### The opcode map by opcode number -/

theorem rowOf_operands (op : BitVec 8) (row : Row) (found : rowOf op = some row) :
    row.operands = requiredOperands op.toNat := by
  have table : ∀ op : BitVec 8, ∀ row ∈ rowOf op, row.operands = requiredOperands op.toNat := by decide
  exact table op row found

/-- The index ranges of R105: 0..7, 0..63, and 16..63 for EXPAND_STEP. -/
theorem rowOf_bounds (op : BitVec 8) (row : Row) (found : rowOf op = some row) (indexed : row.format = .cmdI) :
    (op.toNat ∈ [0x02, 0x03, 0x04, 0x05, 0x09] ∧ row.lo = 0 ∧ row.hi = 7) ∨
      (op.toNat ∈ [0x06, 0x07, 0x08, 0x21] ∧ row.lo = 0 ∧ row.hi = 63) ∨
      (op.toNat = 0x11 ∧ row.lo = 16 ∧ row.hi = 63) := by
  have table : ∀ op : BitVec 8, ∀ row ∈ rowOf op, row.format = .cmdI →
      (op.toNat ∈ [0x02, 0x03, 0x04, 0x05, 0x09] ∧ row.lo = 0 ∧ row.hi = 7) ∨
        (op.toNat ∈ [0x06, 0x07, 0x08, 0x21] ∧ row.lo = 0 ∧ row.hi = 63) ∨
        (op.toNat = 0x11 ∧ row.lo = 16 ∧ row.hi = 63) := by decide
  exact table op row found indexed

/-- R105's index check by the row and by opcode number are the same test. -/
theorem indexOutside_iff (op arg : BitVec 8) (row : Row) (found : rowOf op = some row) :
    indexOutside op.toNat arg.toNat ↔ row.format = .cmdI ∧ indexWithin row.lo row.hi arg = false := by
  rw [indexWithin_eq_false_iff]
  by_cases indexed : row.format = .cmdI
  · obtain ⟨code, lo, hi⟩ | ⟨code, lo, hi⟩ | ⟨code, lo, hi⟩ := rowOf_bounds op row found indexed
    all_goals
      simp only [indexOutside, indexed, lo, hi, List.mem_cons, List.not_mem_nil, or_false, true_and] at code ⊢
      omega
  · have notIndexed := mt (rowOf_format op row found).1.mpr indexed
    exact iff_of_false (mt (mem_indexOps_of_indexOutside _ _) notIndexed) fun outside => indexed outside.1

/-- Settles O5: the three tests of the decoder's map are those of the opcode lists. -/
theorem classifyFollowsTheProcedure : Obligations.ClassifyFollowsTheProcedure := by
  intro cmd
  have illegal := rowOf_eq_none_iff cmd
  cases found : rowOf (opField cmd) with
  | none => rw [if_pos (illegal.mp found), classify, found]
  | some row =>
    have assigned : ¬ unassigned (cmd.toNat / 2 ^ 24) := by
      rw [← illegal, found]
      exact Option.some_ne_none row
    have outside := indexOutside_iff (opField cmd) (argField cmd) row found
    rw [opField_toNat, argField_toNat] at outside
    simp only [if_neg assigned, ← reservedBitsSet_iff cmd row found, outside, classify, found, Bool.and_eq_true,
      beq_iff_eq, Bool.not_eq_true']

/-! ### Which requests decode -/

theorem nullary_isSome (ops : List Word) (i : Instr) (count : ops.length = 0) : (nullary ops i).isSome := by
  match ops, count with
  | [], _ => rfl

theorem unary_isSome (ops : List Word) (f : Word → Instr) (count : ops.length = 1) : (unary ops f).isSome := by
  match ops, count with
  | [_], _ => rfl

theorem binary_isSome (ops : List Word) (f : Word → Word → Instr) (count : ops.length = 2) :
    (binary ops f).isSome := by
  match ops, count with
  | [_, _], _ => rfl

theorem ternary_isSome (ops : List Word) (f : Word → Word → Word → Instr) (count : ops.length = 3) :
    (ternary ops f).isSome := by
  match ops, count with
  | [_, _, _], _ => rfl

theorem blockary_isSome (ops : List Word) (f : Block → Instr) (count : ops.length = 16) : (blockary ops f).isSome := by
  rw [blockary, dif_pos count]
  rfl

/-- An assigned OP with the operand words it asks for builds an instruction (R103, R105). -/
theorem build_isSome (op arg : BitVec 8) (ops : List Word) (assigned : (rowOf op).isSome = true)
    (count : ops.length = requiredOperands op.toNat) : (build op arg ops).isSome := by
  unfold build
  split
  case h_1 code | h_3 code | h_5 code | h_7 code | h_8 code | h_9 code | h_10 code | h_11 code | h_13 code | h_14 code |
      h_15 code | h_16 code | h_17 code | h_18 code =>
    rw [code] at count
    exact nullary_isSome ops _ count
  case h_2 code | h_4 code | h_6 code | h_20 code | h_21 code | h_22 code | h_28 code | h_29 code | h_30 code |
      h_31 code =>
    rw [code] at count
    exact unary_isSome ops _ count
  case h_23 code | h_24 code | h_25 code =>
    rw [code] at count
    exact binary_isSome ops _ count
  case h_26 code | h_27 code =>
    rw [code] at count
    exact ternary_isSome ops _ count
  case h_12 code | h_19 code =>
    rw [code] at count
    exact blockary_isSome ops _ count
  case h_32 =>
    simp only [imp_false] at *
    exact absurd (rowOf_isSome op assigned) (by simp [*])

/-- A request with a row, no reserved bit and the row's operand count decodes (R362 checks 2, 3 and 4). -/
theorem decode_isOk (r : Request) (row : Row) (found : rowOf (opField r.cmd) = some row)
    (clean : reservedBitsSet row.format r.cmd = false) (count : r.ops.length = row.operands) :
    ∃ i, decode r = .ok i := by
  obtain ⟨i, built⟩ := Option.isSome_iff_exists.mp (build_isSome (opField r.cmd) (argField r.cmd) r.ops (found ▸ rfl)
    (count.trans (rowOf_operands _ row found)))
  exact ⟨i, decode_of_build r row i found clean count built⟩

/-! ### Checks 1 and 5 by opcode number -/

/-- Check 1 of R362, by opcode number. -/
theorem lockedOut_iff (s : State) (cmd : Word) :
    lockedOut s (opField cmd) = true ↔ s.err = true ∧ cmd.toNat / 2 ^ 24 ≠ 0x0A ∧ cmd.toNat / 2 ^ 24 ≠ 0x0B := by
  rw [← opField_toNat]
  simp [lockedOut, acceptedWhileLocked, ← BitVec.toNat_inj]

/-- Check 5 of R362, by opcode number: it is the well-formedness of the decoded instruction. -/
theorem wellFormed_iff_of_decode (r : Request) (i : Instr) (decoded : decode r = .ok i) :
    i.wellFormed = true ↔ ¬ indexOutside (r.cmd.toNat / 2 ^ 24) (r.cmd.toNat % 2 ^ 8) := by
  obtain ⟨row, found, arg, -, -, range⟩ := encodes i
  rw [encodeOfDecode r i decoded] at found arg
  rw [← opField_toNat, ← argField_toNat, indexOutside_iff _ _ row found, arg, ← range]
  simp

/-! ### The first failing check -/

/-- What an accepted request has passed: check 1, and the decoder's checks 2 to 4. -/
theorem acceptRequest_eq_ok (r : Request) (s : State) (i : Instr) (accepted : acceptRequest r s = .ok i) :
    ¬ lockedOut s (opField r.cmd) = true ∧ decode r = .ok i := by
  unfold acceptRequest at accepted
  split at accepted
  · cases accepted
  · next unlocked => exact ⟨unlocked, accepted⟩

section
variable (s : State) (r : Request)

/-- Past the lockout, the checks of a request whose OP has a row are those of the row. -/
theorem firstFailingCheck_of_row (row : Row) (unlocked : ¬ lockedOut s (opField r.cmd) = true)
    (found : rowOf (opField r.cmd) = some row) :
    firstFailingCheck s r =
      if reservedBitsSet row.format r.cmd = true then some .reservedBits
      else if r.ops.length ≠ row.operands then some .operandCount
      else if indexOutside (r.cmd.toNat / 2 ^ 24) (r.cmd.toNat % 2 ^ 8) then some .indexRange
      else none := by
  have assigned : ¬ unassigned (r.cmd.toNat / 2 ^ 24) := by
    rw [← rowOf_eq_none_iff, found]
    exact Option.some_ne_none row
  simp only [firstFailingCheck, if_neg (mt (lockedOut_iff s r.cmd).mpr unlocked), if_neg assigned,
    ← reservedBitsSet_iff r.cmd row found, rowOf_operands _ row found, opField_toNat]

/-- A request that checks 1 to 4 refuse fails that check first. -/
theorem firstFailingCheck_of_error (c : ErrorCode) (refused : acceptRequest r s = .error c) :
    firstFailingCheck s r = some c := by
  unfold acceptRequest at refused
  split at refused
  · next locked =>
    cases refused
    exact if_pos ((lockedOut_iff s r.cmd).mp locked)
  · next unlocked =>
    obtain ⟨rfl, unfound⟩ | ⟨row, found, ⟨rfl, set⟩ | ⟨rfl, clean⟩⟩ := decode_eq_error r c refused
    · exact (if_neg (mt (lockedOut_iff s r.cmd).mpr unlocked)).trans (if_pos ((rowOf_eq_none_iff r.cmd).mp unfound))
    · rw [firstFailingCheck_of_row s r row unlocked found, if_pos set]
    · have wrong : r.ops.length ≠ row.operands := fun count => by
        obtain ⟨i, decoded⟩ := decode_isOk r row found clean count
        rw [refused] at decoded
        cases decoded
      rw [firstFailingCheck_of_row s r row unlocked found, clean, if_neg Bool.false_ne_true, if_pos wrong]

/-- A request that checks 1 to 4 accept can fail only the index check of its instruction. -/
theorem firstFailingCheck_of_ok (i : Instr) (accepted : acceptRequest r s = .ok i) :
    firstFailingCheck s r = if i.wellFormed = true then none else some .indexRange := by
  obtain ⟨unlocked, decoded⟩ := acceptRequest_eq_ok r s i accepted
  obtain ⟨row, found, clean, count, -⟩ := decode_eq_ok r i decoded
  rw [firstFailingCheck_of_row s r row unlocked found, clean, if_neg Bool.false_ne_true, if_neg (not_not.mpr count)]
  simp only [wellFormed_iff_of_decode r i decoded, ite_not]

/-- The checks of R362 said once: the first that fails is raised, with the request's own command word. -/
theorem transact_of_failing_check (c : ErrorCode) (fails : firstFailingCheck s r = some c) :
    transact r s = raiseError c r.cmd s := by
  cases answer : acceptRequest r s with
  | error d =>
    obtain rfl : d = c := Option.some.inj ((firstFailingCheck_of_error s r d answer).symm.trans fails)
    rw [transact, answer]
  | ok i =>
    obtain ⟨unlocked, decoded⟩ := acceptRequest_eq_ok r s i answer
    rw [firstFailingCheck_of_ok s r i answer] at fails
    split at fails <;> cases fails
    next bad =>
    rw [transact_of_decode r i s decoded, exec_eq, if_neg (mt (lockedOut_iff_refused r i s decoded).mpr unlocked),
      if_neg bad, encodeOfDecode r i decoded]

/-- A request that fails no check decodes to a well-formed instruction, and its transaction is that effect. -/
theorem transact_of_no_failing_check (passes : firstFailingCheck s r = none) :
    ∃ i, decode r = .ok i ∧ i.wellFormed = true ∧ transact r s = finish (effectOf i s) := by
  cases answer : acceptRequest r s with
  | error d => cases (firstFailingCheck_of_error s r d answer).symm.trans passes
  | ok i =>
    obtain ⟨unlocked, decoded⟩ := acceptRequest_eq_ok r s i answer
    rw [firstFailingCheck_of_ok s r i answer] at passes
    split at passes <;> cases passes
    next ok =>
    refine ⟨i, decoded, ok, ?_⟩
    rw [transact_of_decode r i s decoded, exec_accepted i s (mt (lockedOut_iff_refused r i s decoded).mpr unlocked) ok]

end

/-- Each instruction has as many results as R105 gives its OP. -/
theorem effectOf_results_length (i : Instr) (s : State) : (effectOf i s).2.length = resultCount i.op.toNat := by
  cases i <;> rfl

/-- Settles O7: a failing check raises its error, and a request without one is its instruction's effect. -/
theorem checksRunInTheFixedOrder : Obligations.ChecksRunInTheFixedOrder := by
  intro s r
  cases checked : firstFailingCheck s r with
  | some c =>
    rw [transact_of_failing_check s r c checked]
    exact ⟨_, rfl, by simp⟩
  | none =>
    obtain ⟨i, decoded, ok, performed⟩ := transact_of_no_failing_check s r checked
    refine ⟨i, decoded, ok, respond (.ack (effectOf i s).2) (effectOf i s).1, (effectOf i s).2, performed, ?_, ?_⟩
    · rw [respond_responses, (effectOf_keeps i s).responses]
    · rw [effectOf_results_length, ← opField_of_decode r i decoded, opField_toNat]

/-! ### Errors of the unlocked engine -/

/-- The first error, unless it is LOCKED, is recorded, answered by NAK, and changes nothing else (R361, R363). -/
theorem raiseError_first (c : ErrorCode) (cmd : Word) (s : State) (unlocked : s.err = false) (notLocked : c ≠ .locked) :
    raiseError c cmd s =
      .next { s with err := true, errCode := c.code, errInfo := cmd, responses := .nak c.code :: s.responses } := by
  rw [raiseError, recordError_first s c cmd unlocked notLocked, respond]

/-- Settles O4: the opcodes of R106 are those without a row, whose check comes first in an unlocked engine. -/
theorem unassignedOpcodesAreIllegal : Obligations.UnassignedOpcodesAreIllegal := by
  intro s r unlocked
  refine ⟨fun unfound => ?_, fun assigned illegal => ?_⟩
  · have first : firstFailingCheck s r = some .illegalOpcode := by
      rw [firstFailingCheck, if_neg (by simp [unlocked]), if_pos unfound]
    rw [transact_of_failing_check s r _ first]
    exact raiseError_first _ _ s unlocked (by decide)
  · obtain ⟨-, unfound⟩ | ⟨row, -, ⟨⟨⟩, -⟩ | ⟨⟨⟩, -⟩⟩ := decode_eq_error r _ illegal
    exact assigned ((rowOf_eq_none_iff r.cmd).mp unfound)

/-- Settles O11: past the lockout, an instruction that is not well-formed raises INDEX_RANGE. -/
theorem outOfRangeIndexIsRefused : Obligations.OutOfRangeIndexIsRefused := by
  intro i s unlocked bad
  rw [exec_eq, if_neg (by simp [unlocked]), if_neg (by simp [bad])]
  exact raiseError_first .indexRange _ s unlocked (by decide)

end Sys2Proof.Proofs
end

section
/-! PROOFS. RESTORE_STATE (spec R111, R412): its eight requests write all of H. The idea: a run of WRITE_H requests leaves H
as a fold of single writes, and eight writes at the indexes 0 to 7 leave no old word. -/

namespace Sys2Proof.Proofs

open Sys2Proof.Machine Sys2Proof.Safety Sys2Proof.HostSide

/-! ### Writes of consecutive words -/

/-- The words of `writes`, each written at its index, in order. -/
def writeWords {n : Nat} (xs : Vector MarkedWord n) (writes : List (Word × Nat)) : Vector MarkedWord n :=
  writes.foldl (fun ys (x, k) => writeWord ys k x) xs

/-- Consecutive writes from index `k` on leave the words below `k` alone and put theirs from there. -/
theorem getElem?_writeWords_zipIdx {n : Nat} (ws : List Word) (xs : Vector MarkedWord n) (k j : Nat)
    (fits : k + ws.length ≤ n) :
    (writeWords xs (ws.zipIdx k))[j]? =
      if k ≤ j ∧ j < k + ws.length then (ws[j - k]?).map definedWord else xs[j]? := by
  induction ws generalizing xs k with
  | nil => simp [writeWords, show ¬ (k ≤ j ∧ j < k) by omega]
  | cons x ws ih =>
    rw [List.length_cons] at fits ⊢
    rw [List.zipIdx_cons, writeWords, List.foldl_cons, ← writeWords, ih _ _ (by omega), getElem?_writeWord]
    obtain below | rfl | above := Nat.lt_trichotomy j k
    · rw [if_neg (by omega), if_neg (by omega), if_neg (by omega)]
    · rw [if_neg (by omega), if_pos rfl, if_pos (by omega), if_pos (by omega)]
      simp
    · rw [if_neg (show k ≠ j by omega), show j - k = j - (k + 1) + 1 by omega, List.getElem?_cons_succ]
      simp only [show k + 1 ≤ j ↔ k ≤ j by omega, show k + 1 + ws.length = k + (ws.length + 1) by omega]

/-- Writing every word of an array leaves no old one. -/
theorem writeWords_all {n : Nat} (xs : Vector MarkedWord n) (ws : Vector Word n) :
    writeWords xs ws.toList.zipIdx = definedWords ws := by
  refine eq_definedWords _ ws fun j inside => ?_
  rw [getElem?_writeWords_zipIdx _ _ _ _ (by simp), if_pos (by simp [inside])]
  simp

/-! ### A run of WRITE_H requests -/

/-- A run of the machine takes its first step and goes on from there. -/
theorem run_succ (M : Host.Core) (k : Nat) (s t : M.State) (next : M.step s = .next t) :
    M.run (k + 1) s = M.run k t := by
  rw [Host.Core.run, next]

/-- The request of WRITE_H `k` (R201). -/
def writeHRequest (write : Word × Nat) : HostAction :=
  .request (encode (.writeH (BitVec.ofNat 8 write.2) write.1))

theorem restoreState_eq (hs : List Word) : (restoreState hs).map .request = hs.zipIdx.map writeHRequest := by
  rw [restoreState, List.map_map]
  rfl

/-- One WRITE_H request, taken from the inbox by an unlocked engine, writes its word (R201). -/
theorem step_writeH (s : State) (x : Word) (k : Nat) (rest : List HostAction) (unlocked : s.err = false) (inside : k < 8)
    (waiting : s.inbox = writeHRequest (x, k) :: rest) :
    step s = .next { s with h := writeWord s.h k x, inbox := rest, responses := .ack [] :: s.responses } := by
  have index : (BitVec.ofNat 8 k).toNat = k := by rw [BitVec.toNat_ofNat]; omega
  have decoded := decodeOfEncode (.writeH (BitVec.ofNat 8 k) x)
  rw [step_of_request s _ rest waiting, transact_of_decode _ _ _ decoded,
    exec_unlocked (.writeH (BitVec.ofNat 8 k) x) { s with inbox := rest } unlocked
      (indexWithin_of_lt 7 (BitVec.ofNat 8 k) (by omega)), finish, effectOf, indexOf, index, respond]

/-- A run of WRITE_H requests makes their writes and answers each by ACK. -/
theorem run_writeH (writes : List (Word × Nat)) (s : State) (rest : List HostAction) (unlocked : s.err = false)
    (inside : ∀ write ∈ writes, write.2 < 8) (waiting : s.inbox = writes.map writeHRequest ++ rest) :
    core.run writes.length s = .next
      { s with
        h := writeWords s.h writes
        inbox := rest
        responses := List.replicate writes.length (.ack []) ++ s.responses } := by
  induction writes generalizing s with
  | nil => rw [← show s.inbox = rest from waiting]; rfl
  | cons write writes ih =>
    obtain ⟨first, later⟩ := List.forall_mem_cons.mp inside
    have next := step_writeH s write.1 write.2 (writes.map writeHRequest ++ rest) unlocked first waiting
    refine (run_succ core _ s _ next).trans ((ih _ (by exact unlocked) later (by rfl)).trans ?_)
    rw [List.append_cons, ← List.replicate_succ']
    rfl

/-- Settles O59: the eight requests write the indexes 0 to 7, so H holds the eight words and no old one. -/
theorem restoreStateWritesTheHashState : Obligations.RestoreStateWritesTheHashState := by
  intro s hs rest unlocked waiting
  rw [restoreState_eq] at waiting
  have inside : ∀ write ∈ hs.toList.zipIdx, write.2 < 8 := fun write mem => by
    simpa using List.snd_lt_of_mem_zipIdx mem
  have run := run_writeH _ s rest unlocked inside waiting
  rw [writeWords_all, List.length_zipIdx, Vector.length_toList] at run
  exact ⟨_, run, rfl, rfl, rfl⟩

end Sys2Proof.Proofs
end

section
/-! PROOFS. The word operations (spec R140 to R150, R160 to R171). The idea: every command of the library is its function's
word on an unchanged state, and every function is known by the bits of its result. -/

namespace Sys2Proof.Proofs

open Sys2Proof.Machine

/-! ### A word operation completes and writes no state -/

/-- In an unlocked state an instruction whose effect is one result word alone answers ACK with that word, and only this
response is new (R362). -/
theorem exec_of_result (i : Instr) (s : State) (y : Word) (unlocked : s.err = false) (ok : i.wellFormed = true)
    (effect : effectOf i s = (s, [y])) : exec i s = .next { s with responses := .ack [y] :: s.responses } := by
  rw [exec_unlocked i s unlocked ok, effect, finish_eq, respond]

/-! ### The functions of the library, bit by bit -/

@[simp] theorem getLsbD_notWord (x : Word) (j : Nat) (inside : j < 32) : (notWord x).getLsbD j = !x.getLsbD j := by
  simp [notWord, inside]

@[simp] theorem getLsbD_andWord (x y : Word) (j : Nat) :
    (andWord x y).getLsbD j = (x.getLsbD j && y.getLsbD j) := BitVec.getLsbD_and

@[simp] theorem getLsbD_xorWord (x y : Word) (j : Nat) :
    (xorWord x y).getLsbD j = (x.getLsbD j ^^ y.getLsbD j) := BitVec.getLsbD_xor

/-- Each bit comes from `n` places above, and is 0 where that place lies above the word (R141). -/
theorem getLsbD_shr (x : Word) (n j : Nat) :
    (shr x n).getLsbD j = (decide (j + n < 32) && x.getLsbD (j + n)) := by
  rw [shr, BitVec.getLsbD_ushiftRight, Nat.add_comm n j]
  by_cases inside : j + n < 32
  · simp [inside]
  · simp [inside, BitVec.getLsbD_of_ge x (j + n) (by omega)]

/-- ROTR is the library's rotation for the amounts that its instruction carries (R140). -/
theorem rotr_eq_rotateRight (x : Word) (n : Nat) (amount : n < 32) : rotr x n = x.rotateRight n := by
  rw [rotr, BitVec.rotateRight_def, Nat.mod_eq_of_lt amount]

/-- Bits that do not leave the word at the right move down by `n`, and the others come back in at the top (R140). -/
theorem getLsbD_rotr (x : Word) (n j : Nat) (amount : n < 32) (inside : j < 32) :
    (rotr x n).getLsbD j = x.getLsbD ((j + n) % 32) := by
  rw [rotr_eq_rotateRight x n amount, BitVec.getLsbD_rotateRight, Nat.mod_eq_of_lt amount]
  by_cases stays : j < 32 - n
  · rw [decide_eq_true stays, cond_true, Nat.mod_eq_of_lt (by omega), Nat.add_comm]
  · rw [decide_eq_false stays, cond_false, decide_eq_true inside, Bool.true_and, show j - (32 - n) = (j + n) % 32 by omega]

/-- CH is a selection in each bit (R145). -/
theorem getLsbD_choice (x y z : Word) (j : Nat) (inside : j < 32) :
    (choice x y z).getLsbD j = if x.getLsbD j then y.getLsbD j else z.getLsbD j := by
  rw [choice, getLsbD_xorWord, getLsbD_andWord, getLsbD_andWord, getLsbD_notWord x j inside]
  cases x.getLsbD j <;> simp

/-- MAJ is a vote in each bit (R146). -/
theorem getLsbD_majority (x y z : Word) (j : Nat) :
    (majority x y z).getLsbD j = decide (2 ≤ (x.getLsbD j).toNat + (y.getLsbD j).toNat + (z.getLsbD j).toNat) := by
  simp only [majority, getLsbD_xorWord, getLsbD_andWord]
  cases x.getLsbD j <;> cases y.getLsbD j <;> cases z.getLsbD j <;> rfl

/-- The exclusive-or of three rotations, the form of BSIG0 and BSIG1 (R147, R148). -/
theorem getLsbD_xorWord_rotr_rotr_rotr (x : Word) (a b c j : Nat) (amountA : a < 32) (amountB : b < 32)
    (amountC : c < 32) (inside : j < 32) :
    (xorWord (xorWord (rotr x a) (rotr x b)) (rotr x c)).getLsbD j =
      ((x.getLsbD ((j + a) % 32) ^^ x.getLsbD ((j + b) % 32)) ^^ x.getLsbD ((j + c) % 32)) := by
  simp only [getLsbD_xorWord, getLsbD_rotr, amountA, amountB, amountC, inside]

/-- The exclusive-or of two rotations and a shift, the form of SSIG0 and SSIG1 (R149, R150). -/
theorem getLsbD_xorWord_rotr_rotr_shr (x : Word) (a b c j : Nat) (amountA : a < 32) (amountB : b < 32)
    (inside : j < 32) :
    (xorWord (xorWord (rotr x a) (rotr x b)) (shr x c)).getLsbD j =
      ((x.getLsbD ((j + a) % 32) ^^ x.getLsbD ((j + b) % 32)) ^^ (decide (j + c < 32) && x.getLsbD (j + c))) := by
  simp only [getLsbD_xorWord, getLsbD_rotr, getLsbD_shr, amountA, amountB, inside]

/-! ### The functions of the library as numbers -/

theorem rotr_toNat (x : Word) (n : Nat) :
    (rotr x n).toNat = (x.toNat >>> n) ||| ((x.toNat <<< (32 - n)) % 2 ^ 32) := by
  rw [rotr, BitVec.toNat_or, BitVec.toNat_ushiftRight, BitVec.toNat_shiftLeft]

theorem shr_toNat (x : Word) (n : Nat) : (shr x n).toNat = x.toNat / 2 ^ n := by
  rw [shr, BitVec.toNat_ushiftRight, Nat.shiftRight_eq_div_pow]

/-- A rotation by 0 is the word itself: all its bits shifted left leave the word (R140). -/
@[simp] theorem rotr_zero (x : Word) : rotr x 0 = x := by
  rw [rotr, BitVec.ushiftRight_zero, BitVec.shiftLeft_eq_zero (Nat.le_refl 32), BitVec.or_zero]

@[simp] theorem shr_zero (x : Word) : shr x 0 = x := BitVec.ushiftRight_zero x

/-! ### The obligations -/

/-- Settles O24: ROTR is the library's rotation, whose bits and number are known. -/
theorem rotrRotatesRight : Obligations.RotrRotatesRight := by
  intro s n x unlocked
  refine ⟨rotr x n.toNat, exec_of_result (.rotr n x) s _ unlocked rfl rfl, fun j inside => ?_, rotr_toNat x n.toNat, ?_⟩
  · exact getLsbD_rotr x n.toNat j n.isLt inside
  · rintro rfl
    exact rotr_zero x

/-- Settles O25: a right shift of a word divides it, and reads only zeros above the word. -/
theorem shrShiftsRightWithZeros : Obligations.ShrShiftsRightWithZeros := by
  intro s n x unlocked
  refine ⟨shr x n.toNat, exec_of_result (.shr n x) s _ unlocked rfl rfl, shr_toNat x n.toNat, fun j above => ?_, ?_⟩
  · rw [getLsbD_shr, decide_eq_false (by omega), Bool.false_and]
  · rintro rfl
    exact shr_zero x

/-- Settles O26: the complement within the word's width, as a number and in each bit. -/
theorem notComplementsWithin32Bits : Obligations.NotComplementsWithin32Bits := fun s x unlocked =>
  ⟨notWord x, exec_of_result (.not x) s _ unlocked rfl rfl, BitVec.toNat_not, getLsbD_notWord x⟩

/-- Settles O27: in each bit, AND is the conjunction and XOR the inequality of the operands' bits. -/
theorem andXorAreBitwise : Obligations.AndXorAreBitwise := by
  intro s x y unlocked
  refine ⟨⟨andWord x y, exec_of_result (.and x y) s _ unlocked rfl rfl, fun j => ?_⟩,
    ⟨xorWord x y, exec_of_result (.xor x y) s _ unlocked rfl rfl, fun j => ?_⟩⟩
  · rw [getLsbD_andWord, Bool.and_eq_true]
  · rw [getLsbD_xorWord, bne_iff_ne]

/-- Settles O28: ADD is the sum of bit vectors, which wraps, commutes and associates. -/
theorem addWrapsModulo : Obligations.AddWrapsModulo :=
  ⟨fun s x y unlocked => ⟨addWord x y, exec_of_result (.add x y) s _ unlocked rfl rfl, BitVec.toNat_add x y⟩,
    BitVec.add_comm, BitVec.add_assoc⟩

/-- Settles O29: both commands are their formulas, which select and vote in each bit. -/
theorem choiceAndMajorityBitByBit : Obligations.ChoiceAndMajorityBitByBit := fun s x y z unlocked =>
  ⟨⟨choice x y z, exec_of_result (.ch x y z) s _ unlocked rfl rfl, rfl, getLsbD_choice x y z⟩,
    ⟨majority x y z, exec_of_result (.maj x y z) s _ unlocked rfl rfl, rfl, fun j _ => getLsbD_majority x y z j⟩⟩

/-- Settles O30: each command is its formula, and the two forms of the formulas are known bit by bit. -/
theorem sigmaFunctionsBitByBit : Obligations.SigmaFunctionsBitByBit := by
  intro s x unlocked
  refine ⟨⟨bsig0 x, exec_of_result (.bsig0 x) s _ unlocked rfl rfl, rfl, fun j inside => ?_⟩,
    ⟨bsig1 x, exec_of_result (.bsig1 x) s _ unlocked rfl rfl, rfl, fun j inside => ?_⟩,
    ⟨ssig0 x, exec_of_result (.ssig0 x) s _ unlocked rfl rfl, rfl, fun j inside => ?_⟩,
    ⟨ssig1 x, exec_of_result (.ssig1 x) s _ unlocked rfl rfl, rfl, fun j inside => ?_⟩⟩
  · exact getLsbD_xorWord_rotr_rotr_rotr x 2 13 22 j (by omega) (by omega) (by omega) inside
  · exact getLsbD_xorWord_rotr_rotr_rotr x 6 11 25 j (by omega) (by omega) (by omega) inside
  · exact getLsbD_xorWord_rotr_rotr_shr x 7 18 3 j (by omega) (by omega) inside
  · exact getLsbD_xorWord_rotr_rotr_shr x 17 19 10 j (by omega) (by omega) inside

end Sys2Proof.Proofs
end

section
/-! PROOFS. State access (spec R200 to R208): INIT, the writes and reads of H, V and W, and the reads of the ROMs, with
the index in range. Each is its effect, so what is left to say is what that effect does to one array or answers from
it. -/

namespace Sys2Proof.Proofs

open Sys2Proof.Machine

/-! ### Writes and reads of one word -/

/-- A write inside the array puts the word there, defined, and keeps every other word (R43). -/
theorem writeWord_sets_one {n : Nat} (xs : Vector MarkedWord n) (i : Nat) (x : Word) (inside : i < n) :
    (writeWord xs i x)[i]? = some ⟨x, true⟩ ∧ ∀ j, j ≠ i → (writeWord xs i x)[j]? = xs[j]? := by
  refine ⟨?_, fun j other => ?_⟩
  · rw [getElem?_writeWord, if_pos rfl, if_pos inside, definedWord]
  · rw [getElem?_writeWord, if_neg other.symm]

/-- A read of one word names that word exactly when its mark is clear (R366). -/
theorem firstUndefined_singleton {n : Nat} (bank : Bank) (xs : Vector MarkedWord n) (i : Nat) (c : MarkedWord)
    (at_i : xs[i]? = some c) : firstUndefined bank xs [i] = if c.defined then none else some ⟨bank, i⟩ := by
  rw [firstUndefined_cons, firstUndefined_nil, isDefined, at_i, Option.map_some, Option.getD_some]

/-- A read answers the word, and changes nothing but the note, which an undefined word adds to (R73, R366). -/
theorem finish_readEffect {n : Nat} (bank : Bank) (xs : Vector MarkedWord n) (i : Nat) (s : State) (c : MarkedWord)
    (at_i : xs[i]? = some c) :
    finish (readEffect bank xs i s) = .next
      { s with
        responses := .ack [c.value] :: s.responses
        undefinedRead := if c.defined then s.undefinedRead else s.undefinedRead.or (some ⟨bank, i⟩) } := by
  rw [readEffect, finish_eq, valueAt_of_getElem? xs i c at_i, noteReads, firstUndefined_singleton bank xs i c at_i,
    respond]
  cases c.defined
  · rfl
  · simp

/-- A ROM word read inside the ROM is the word there. -/
theorem getElem?_eq_wordAt {n : Nat} (xs : Vector Word n) (i : Nat) (inside : i < n) : xs[i]? = some (wordAt xs i) := by
  rw [wordAt_of_lt xs i inside, Vector.getElem?_eq_getElem inside]

/-! ### The commands -/

/-- Settles O31: the effect writes H as a whole from IV. -/
theorem initLoadsTheInitialHash : Obligations.InitLoadsTheInitialHash := fun s unlocked =>
  ⟨_, exec_unlocked .init s unlocked rfl, fun k _ => getElem?_definedWords s.iv k, rfl⟩

/-- Settles O32: an index in range lies inside its array, where a write sets one word. -/
theorem writesSetOneWord : Obligations.WritesSetOneWord := by
  intro s index x unlocked
  refine ⟨fun high => ?_, fun high => ?_, fun high => ?_⟩ <;> have inside := Nat.lt_succ_of_le high
  · obtain ⟨set, others⟩ := writeWord_sets_one s.h index.toNat x inside
    exact ⟨_, exec_unlocked (.writeH index x) s unlocked (indexWithin_of_lt 7 index inside), set, others, rfl⟩
  · obtain ⟨set, others⟩ := writeWord_sets_one s.v index.toNat x inside
    exact ⟨_, exec_unlocked (.writeV index x) s unlocked (indexWithin_of_lt 7 index inside), set, others, rfl⟩
  · obtain ⟨set, others⟩ := writeWord_sets_one s.w index.toNat x inside
    exact ⟨_, exec_unlocked (.writeW index x) s unlocked (indexWithin_of_lt 63 index inside), set, others, rfl⟩

/-- Settles O33: a word that is there has its index in range, so the read passes its index check and is made. -/
theorem readsAnswerTheWord : Obligations.ReadsAnswerTheWord := by
  intro s index c unlocked
  refine ⟨fun at_i => ?_, fun at_i => ?_, fun at_i => ?_⟩ <;>
    obtain ⟨inside, -⟩ := Vector.getElem?_eq_some_iff.mp at_i
  · rw [exec_unlocked (.readH index) s unlocked (indexWithin_of_lt 7 index inside)]
    exact finish_readEffect .H s.h index.toNat s c at_i
  · rw [exec_unlocked (.readV index) s unlocked (indexWithin_of_lt 7 index inside)]
    exact finish_readEffect .V s.v index.toNat s c at_i
  · rw [exec_unlocked (.readW index) s unlocked (indexWithin_of_lt 63 index inside)]
    exact finish_readEffect .W s.w index.toNat s c at_i

/-- Settles O35: a ROM read has one result word and no effect, and its index in range lies inside the ROM. -/
theorem romReadsAnswerTheRomWord : Obligations.RomReadsAnswerTheRomWord := by
  intro s index unlocked
  refine ⟨fun high => ?_, fun high => ?_⟩ <;> have inside := Nat.lt_succ_of_le high
  · exact ⟨_, getElem?_eq_wordAt s.k index.toNat inside,
      exec_of_result (.readK index) s _ unlocked (indexWithin_of_lt 63 index inside) rfl⟩
  · exact ⟨_, getElem?_eq_wordAt s.iv index.toNat inside,
      exec_of_result (.readIv index) s _ unlocked (indexWithin_of_lt 7 index inside) rfl⟩

end Sys2Proof.Proofs
end

section
/-! PROOFS. LOAD_BLOCK and EXPAND_STEP (spec R250 to R252). Each is its effect, a write of W; which word an UndefinedRead
names is the first undefined one of a list of reads. -/

namespace Sys2Proof.Proofs

open Sys2Proof.Machine Sys2Proof.Safety

/-! ### The first undefined word of a list of reads -/

section
variable {n : Nat} (bank : Bank) (xs : Vector MarkedWord n)

/-- The word at place `p` of the reads is named when it is undefined and those before it are defined (R366). -/
theorem firstUndefined_eq_some (reads : List Nat) (p : Nat) (inside : p < reads.length)
    (before : ∀ q < p, definedAt xs (reads.getD q 0)) (clear : undefinedAt xs (reads.getD p 0)) :
    firstUndefined bank xs reads = some ⟨bank, reads.getD p 0⟩ := by
  rw [List.getD_eq_getElem reads 0 inside] at clear ⊢
  have found : (reads.find? fun i => !isDefined xs i) = some reads[p] := by
    refine List.find?_eq_some_iff_getElem.mpr ⟨by simp [isDefined_of_clear xs _ clear], p, inside, rfl, fun q lt => ?_⟩
    have set := before q lt
    rw [List.getD_eq_getElem reads 0 (lt.trans inside)] at set
    simp [isDefined_of_set xs _ set]
  rw [firstUndefined, found, Option.map_some]

/-- Reads of defined words may be left out of the list. -/
theorem firstUndefined_filter (keep : Nat → Bool) (reads : List Nat)
    (dropped : ∀ i, keep i = false → isDefined xs i = true) :
    firstUndefined bank xs (reads.filter keep) = firstUndefined bank xs reads := by
  have same : ∀ i, (keep i && !isDefined xs i) = !isDefined xs i := by
    intro i
    cases kept : keep i with
    | true => rfl
    | false => rw [dropped i kept]; rfl
  simp [firstUndefined, List.find?_filter, same]

/-- A word read again is not the first undefined one. -/
theorem firstUndefined_eraseDups : ∀ reads : List Nat,
    firstUndefined bank xs reads.eraseDups = firstUndefined bank xs reads
  | [] => rfl
  | i :: reads => by
    rw [List.eraseDups_cons, firstUndefined_cons, firstUndefined_cons, firstUndefined_eraseDups]
    cases set : isDefined xs i with
    | false => rfl
    | true => exact firstUndefined_filter bank xs _ reads (by simp +contextual [set])
termination_by reads => reads.length
decreasing_by exact Nat.lt_succ_of_le (List.length_filter_le _ _)

/-- A write sets one mark and keeps the others (R43). -/
theorem isDefined_writeWord (i j : Nat) (x : Word) :
    isDefined (writeWord xs i x) j = (j == i || isDefined xs j) := by
  rw [isDefined, getElem?_writeWord]
  by_cases same : j = i
  · by_cases inside : i < n <;> simp [same, inside]
  · simp [isDefined, same, Ne.symm same]

/-- After a write, reads of the written word are of a defined one (R43). -/
theorem firstUndefined_writeWord (i : Nat) (x : Word) (reads : List Nat) :
    firstUndefined bank (writeWord xs i x) reads = firstUndefined bank xs (reads.filter (· != i)) := by
  rw [← firstUndefined_filter bank (writeWord xs i x) (· != i) reads (by simp +contextual [isDefined_writeWord])]
  simp only [firstUndefined, List.find?_filter, isDefined_writeWord]
  congr 2
  funext j
  by_cases same : j = i <;> simp [same]

end

/-! ### LOAD_BLOCK -/

/-- Settles O37: the effect writes the block over W[0..15]. -/
theorem loadBlockWritesSixteenWords : Obligations.LoadBlockWritesSixteenWords := fun s b unlocked =>
  ⟨_, exec_unlocked (.loadBlock b) s unlocked rfl, getElem?_writeBlock_low s.w b, getElem?_writeBlock_high s.w b, rfl⟩

/-! ### EXPAND_STEP -/

/-- The words EXPAND_STEP i reads, in its order (R250). -/
def stepReads (i : Nat) : List Nat := [i - 16, i - 15, i - 7, i - 2]

theorem expandUpdate_undefinedRead (i : Nat) (s : State) :
    (expandUpdate i s).undefinedRead = s.undefinedRead.or (firstUndefined .W s.w (stepReads i)) := rfl

/-- EXPAND_STEP with its index in range completes with its update (R252, R362). -/
theorem exec_expandStep (s : State) (index : BitVec 8) (unlocked : s.err = false) (low : 16 ≤ index.toNat)
    (high : index.toNat ≤ 63) :
    exec (.expandStep index) s = .next (respond (.ack []) (expandUpdate index.toNat s)) :=
  exec_unlocked (.expandStep index) s unlocked (by simp [Instr.wellFormed, indexWithin, low, high])

/-- Settles O38: the update is one write of W, of the recurrence's sum over the four words read. -/
theorem expandStepWritesTheRecurrence : Obligations.ExpandStepWritesTheRecurrence := by
  intro s index c16 c15 c7 c2 unlocked low high at16 at15 at7 at2
  obtain ⟨set, others⟩ := writeWord_sets_one s.w index.toNat
    (expandWord (valueAt s.w (index.toNat - 16)) (valueAt s.w (index.toNat - 15)) (valueAt s.w (index.toNat - 7))
      (valueAt s.w (index.toNat - 2))) (by omega)
  refine ⟨_, exec_expandStep s index unlocked low high, ?_, others, rfl, fun d16 d15 d7 d2 => ?_⟩
  · refine set.trans ?_
    rw [valueAt_of_getElem? _ _ _ at16, valueAt_of_getElem? _ _ _ at15, valueAt_of_getElem? _ _ _ at7,
      valueAt_of_getElem? _ _ _ at2]
    rfl
  · have clean : firstUndefined .W s.w (stepReads index.toNat) = none := by
      simp [firstUndefined_eq_none_iff, stepReads, isDefined, at16, at15, at7, at2, d16, d15, d7, d2]
    rw [respond_undefinedRead, expandUpdate_undefinedRead, clean, Option.or_none]

/-- Settles O39: the word at place `p` of the reads is the one noted. -/
theorem expandStepNamesTheFirstUndefinedWord : Obligations.ExpandStepNamesTheFirstUndefinedWord := by
  intro s index p unlocked unnoted low high before clear
  have place : ∀ q : Fin 4, (stepReads index.toNat).getD q 0 = index.toNat - [16, 15, 7, 2][q] := by
    intro q
    fin_cases q <;> rfl
  rw [exec_expandStep s index unlocked low high, ← place]
  apply stopAtUndefinedRead_of_some
  rw [respond_undefinedRead, expandUpdate_undefinedRead, unnoted, Option.none_or]
  refine firstUndefined_eq_some .W s.w (stepReads index.toNat) p p.isLt (fun q lt => ?_) ((place p).symm ▸ clear)
  have inside : q < 4 := lt.trans p.isLt
  exact (place ⟨q, inside⟩).symm ▸ before ⟨q, inside⟩ lt

end Sys2Proof.Proofs
end

section
/-! PROOFS. Runs of several commands (spec R111, R362). The idea: no effect looks at the responses already given, so
well-formed commands from an unlocked state leave their effects one after another, and some responses. -/

namespace Sys2Proof.Proofs

open Sys2Proof.Machine Sys2Proof.Safety

/-- The effects of several instructions one after another, their checks and responses left aside. -/
def effects (is : List Instr) (s : State) : State := is.foldl (fun t i => (effectOf i t).1) s

/-- A loop does not look at the responses if its passes do not. -/
theorem forIndexes_responses (f : Nat → State → State)
    (pass : ∀ i s rs, f i { s with responses := rs } = { f i s with responses := rs }) (rs : List Response) :
    ∀ (is : List Nat) (s : State), forIndexes f is { s with responses := rs } = { forIndexes f is s with responses := rs }
  | [], _ => rfl
  | i :: is, s => by rw [forIndexes_cons, pass, forIndexes_responses f pass rs is, forIndexes_cons]

theorem expandAllUpdate_responses (s : State) (rs : List Response) :
    expandAllUpdate { s with responses := rs } = { expandAllUpdate s with responses := rs } :=
  forIndexes_responses expandUpdate (fun _ _ _ => rfl) rs expandIndexes s

theorem roundsAllUpdate_responses (s : State) (rs : List Response) :
    roundsAllUpdate { s with responses := rs } = { roundsAllUpdate s with responses := rs } :=
  forIndexes_responses roundUpdate (fun _ _ _ => rfl) rs roundIndexes s

theorem compressUpdate_responses (b : Block) (s : State) (rs : List Response) :
    compressUpdate b { s with responses := rs } = { compressUpdate b s with responses := rs } := by
  have load : loadBlockUpdate b { s with responses := rs } = { loadBlockUpdate b s with responses := rs } := rfl
  have loadV : ∀ t, loadVUpdate { t with responses := rs } = { loadVUpdate t with responses := rs } := fun _ => rfl
  have accum : ∀ t, accumUpdate { t with responses := rs } = { accumUpdate t with responses := rs } := fun _ => rfl
  rw [compressUpdate, load, expandAllUpdate_responses, loadV, roundsAllUpdate_responses, accum, compressUpdate]

/-- No effect looks at the responses already given. -/
theorem effectOf_responses (i : Instr) (s : State) (rs : List Response) :
    (effectOf i { s with responses := rs }).1 = { (effectOf i s).1 with responses := rs } := by
  cases i with
  | expandAll => exact expandAllUpdate_responses s rs
  | roundsAll => exact roundsAllUpdate_responses s rs
  | compressBlock b => exact compressUpdate_responses b s rs
  | _ => rfl

theorem effects_responses (is : List Instr) (s : State) (rs : List Response) :
    effects is { s with responses := rs } = { effects is s with responses := rs } := by
  induction is generalizing s with
  | nil => rfl
  | cons i is ih =>
    simp only [effects, List.foldl_cons, effectOf_responses] at ih ⊢
    exact ih _

/-- Well-formed instructions from an unlocked state all complete, and leave their effects and some responses (R362). -/
theorem runInstrs_unlocked (is : List Instr) (s : State) (unlocked : s.err = false)
    (ok : ∀ i ∈ is, i.wellFormed = true) : ∃ rs, runInstrs is s = .next { effects is s with responses := rs } := by
  induction is generalizing s with
  | nil => exact ⟨s.responses, rfl⟩
  | cons i is ih =>
    obtain ⟨ok_i, ok_is⟩ := List.forall_mem_cons.mp ok
    have still : (respond (.ack (effectOf i s).2) (effectOf i s).1).err = false :=
      (effectOf_keeps i s).err.trans unlocked
    obtain ⟨rs, runs⟩ := ih _ still ok_is
    rw [respond, effects_responses] at runs
    rw [runInstrs, exec_unlocked i s unlocked ok_i]
    exact ⟨rs, runs⟩

end Sys2Proof.Proofs
end

section
/-! PROOFS. Schedule(b) and EXPAND_ALL (spec R250, R253, R254). The idea: the words of W go through the fold of the
recurrence whatever their marks are, and a schedule is determined by its block and the recurrence, so what W[16..63] held
before does not matter. Of the marks and the note only the reads of words no earlier pass has written matter. -/

namespace Sys2Proof.Proofs

open Sys2Proof.Machine Sys2Proof.Safety

/-! ### The recurrence determines the schedule -/

/-- The words of a schedule: a block, then the recurrence (R254). -/
structure IsSchedule (b : Block) (w : Vector Word 64) : Prop where
  block : ∀ j < 16, wordAt w j = wordAt b j
  recurrence : ∀ i, 16 ≤ i → i < 64 → wordAt w i = expand w i

/-- The recurrence at `i` reads words below `i` only. -/
theorem expand_congr (v w : Vector Word 64) (i : Nat) (positive : 0 < i) (same : ∀ j < i, wordAt v j = wordAt w j) :
    expand v i = expand w i := by
  simp only [expand, same (i - 16) (by omega), same (i - 15) (by omega), same (i - 7) (by omega),
    same (i - 2) (by omega)]

theorem IsSchedule.unique {b : Block} {v w : Vector Word 64} (a : IsSchedule b v) (c : IsSchedule b w) : v = w := by
  have same : ∀ i < 64, wordAt v i = wordAt w i := by
    intro i
    induction i using Nat.strong_induction_on with
    | _ i ih =>
      intro inside
      by_cases low : i < 16
      · rw [a.block i low, c.block i low]
      · rw [a.recurrence i (by omega) inside, c.recurrence i (by omega) inside]
        exact expand_congr v w i (by omega) fun j lt => ih j lt (lt.trans inside)
  apply Vector.ext
  intro i inside
  rw [← wordAt_of_lt v i inside, same i inside, wordAt_of_lt w i inside]

/-- One pass of the fold of R254. -/
def expandPass (w : Vector Word 64) (i : Nat) : Vector Word 64 := w.setIfInBounds i (expand w i)

theorem wordAt_expandPass (w : Vector Word 64) (i j : Nat) (inside : i < 64) :
    wordAt (expandPass w i) j = if i = j then expand w i else wordAt w j := by
  rw [wordAt, expandPass, Vector.getElem?_setIfInBounds, if_pos inside]
  split <;> rfl

/-- Passes from `lo` on keep the words below `lo` and make the recurrence hold of every word they write, since no later pass
touches a word that it reads. -/
theorem foldl_expandPass (n lo : Nat) (w : Vector Word 64) (positive : 0 < lo) (inside : lo + n ≤ 64) :
    (∀ j < lo, wordAt ((List.range' lo n).foldl expandPass w) j = wordAt w j) ∧
      ∀ i, lo ≤ i → i < lo + n →
        wordAt ((List.range' lo n).foldl expandPass w) i = expand ((List.range' lo n).foldl expandPass w) i := by
  induction n generalizing lo w with
  | zero => exact ⟨fun _ _ => rfl, fun i low high => by omega⟩
  | succ n ih =>
    obtain ⟨kept, holds⟩ := ih (lo + 1) (expandPass w lo) (by omega) (by omega)
    rw [List.range'_succ, List.foldl_cons]
    generalize (List.range' (lo + 1) n).foldl expandPass (expandPass w lo) = r at kept holds ⊢
    have below : ∀ j < lo, wordAt r j = wordAt w j := by
      intro j lt
      rw [kept j (by omega), wordAt_expandPass w lo j (by omega), if_neg (by omega)]
    refine ⟨below, fun i low high => ?_⟩
    by_cases first : i = lo
    · subst first
      rw [kept i (by omega), wordAt_expandPass w i i (by omega), if_pos rfl]
      exact (expand_congr r w i positive below).symm
    · exact holds i (by omega) (by omega)

/-- The fold of R254 makes a schedule of any 64 words that start with the block. -/
theorem isSchedule_foldl (b : Block) (w : Vector Word 64) (block : ∀ j < 16, wordAt w j = wordAt b j) :
    IsSchedule b (expandIndexes.foldl expandPass w) := by
  obtain ⟨kept, holds⟩ := foldl_expandPass 48 16 w (by decide) (by decide)
  exact ⟨fun j low => (kept j low).trans (block j low), holds⟩

theorem isSchedule_schedule (b : Block) : IsSchedule b (schedule b) := by
  refine isSchedule_foldl b _ fun j low => ?_
  simp [wordAt, low, show j < 64 by omega]

/-! ### What EXPAND_ALL leaves in W -/

theorem valuesOf_expandUpdate (i : Nat) (s : State) :
    valuesOf (expandUpdate i s).w = expandPass (valuesOf s.w) i := by
  simp only [expandUpdate, valuesOf_writeWord, valueAt_eq_wordAt]
  rfl

/-- The words go through the fold of the recurrence whatever their marks are. -/
theorem valuesOf_forIndexes_expandUpdate (is : List Nat) (s : State) :
    valuesOf (forIndexes expandUpdate is s).w = is.foldl expandPass (valuesOf s.w) := by
  induction is generalizing s with
  | nil => rfl
  | cons i is ih => rw [forIndexes_cons, ih, valuesOf_expandUpdate, List.foldl_cons]

/-- A word no pass writes is kept. -/
theorem forIndexes_expandUpdate_kept (is : List Nat) (s : State) (j : Nat) (unwritten : j ∉ is) :
    (forIndexes expandUpdate is s).w[j]? = s.w[j]? := by
  induction is generalizing s with
  | nil => rfl
  | cons i is ih =>
    obtain ⟨other, others⟩ := not_or.mp (List.mem_cons.not.mp unwritten)
    rw [forIndexes_cons, ih _ others]
    exact (getElem?_writeWord s.w i j _).trans (if_neg (Ne.symm other))

/-- A word some pass writes is defined (R43). -/
theorem forIndexes_expandUpdate_defined (is : List Nat) (s : State) (j : Nat) (inside : j < 64) (written : j ∈ is) :
    definedAt (forIndexes expandUpdate is s).w j := by
  induction is generalizing s with
  | nil => simp at written
  | cons i is ih =>
    by_cases later : j ∈ is
    · exact ih (expandUpdate i s) later
    · obtain rfl : j = i := (List.mem_cons.mp written).resolve_right later
      rw [forIndexes_cons, definedAt, forIndexes_expandUpdate_kept is _ j later]
      exact congrArg (Option.map MarkedWord.defined) (writeWord_sets_one s.w j _ inside).1

/-- EXPAND_ALL completes with its update (R253, R362). -/
theorem exec_expandAll (s : State) (unlocked : s.err = false) :
    exec .expandAll s = .next (respond (.ack []) (expandAllUpdate s)) :=
  exec_unlocked .expandAll s unlocked rfl

theorem mem_expandIndexes (j : Nat) : j ∈ expandIndexes ↔ 16 ≤ j ∧ j < 64 := List.mem_range'_1

theorem expandAllUpdate_low (s : State) (j : Nat) (low : j < 16) : (expandAllUpdate s).w[j]? = s.w[j]? :=
  forIndexes_expandUpdate_kept expandIndexes s j (by rw [mem_expandIndexes]; omega)

/-- A word whose mark is set is its value, defined (R43). -/
theorem getElem?_of_definedAt {n : Nat} (xs : Vector MarkedWord n) (j : Nat) (inside : j < n)
    (set : definedAt xs j) : xs[j]? = ((valuesOf xs)[j]?).map definedWord := by
  have mark : xs[j].defined = true := by simpa [definedAt, inside] using set
  simp only [inside, Vector.getElem?_eq_getElem, Option.map_some, getElem_valuesOf, definedWord, ← mark]

section
variable (s : State) (b : Block) (block : ∀ j < 16, s.w[j]?.map MarkedWord.value = b[j]?)
include block

/-- EXPAND_ALL leaves the schedule of the block W[0..15] hold, whatever the marks and W[16..63] are (R253, R254). -/
theorem valuesOf_expandAllUpdate : valuesOf (expandAllUpdate s).w = schedule b := by
  have starts : ∀ j < 16, wordAt (valuesOf s.w) j = wordAt b j := by
    intro j low
    rw [← valueAt_eq_wordAt, valueAt, block j low, wordAt]
  rw [expandAllUpdate, valuesOf_forIndexes_expandUpdate]
  exact (isSchedule_foldl b (valuesOf s.w) starts).unique (isSchedule_schedule b)

theorem expandAllUpdate_high (j : Nat) (high : 16 ≤ j) :
    (expandAllUpdate s).w[j]? = ((schedule b)[j]?).map definedWord := by
  by_cases inside : j < 64
  · have set := forIndexes_expandUpdate_defined expandIndexes s j inside ((mem_expandIndexes j).mpr ⟨high, inside⟩)
    rw [← valuesOf_expandAllUpdate s b block]
    exact getElem?_of_definedAt _ j inside set
  · simp [inside]

/-- From a loaded block EXPAND_ALL leaves W = Schedule(b), all defined (R254). -/
theorem expandAllUpdate_of_defined (set : ∀ j < 16, definedAt s.w j) :
    (expandAllUpdate s).w = definedWords (schedule b) := by
  apply eq_definedWords
  intro j inside
  by_cases low : j < 16
  · rw [← valuesOf_expandAllUpdate s b block]
    apply getElem?_of_definedAt _ j inside
    rw [definedAt, expandAllUpdate_low s j low]
    exact set j low
  · exact expandAllUpdate_high s b block j (by omega)

end

/-! ### What EXPAND_ALL notes -/

/-- The reads EXPAND_STEP makes at some indexes one after another, those of words written by an earlier step left out. -/
def freshReads : List Nat → List Nat
  | [] => []
  | i :: is => stepReads i ++ (freshReads is).filter (· != i)

/-- Only words that no earlier pass has written can be undefined when they are read. -/
theorem forIndexes_expandUpdate_undefinedRead (is : List Nat) (s : State) :
    (forIndexes expandUpdate is s).undefinedRead = s.undefinedRead.or (firstUndefined .W s.w (freshReads is)) := by
  induction is generalizing s with
  | nil => simp [freshReads]
  | cons i is ih =>
    rw [forIndexes_cons, ih, expandUpdate_undefinedRead, Option.or_assoc, freshReads, firstUndefined_append]
    exact congrArg (fun read => s.undefinedRead.or ((firstUndefined .W s.w (stepReads i)).or read))
      (firstUndefined_writeWord .W s.w i _ (freshReads is))

/-- EXPAND_ALL reads W[0..15] first in the order the spec derives (R250, R253). -/
theorem freshReads_expandIndexes : (freshReads expandIndexes).eraseDups = expandReadOrder := by decide

theorem expandAllUpdate_undefinedRead (s : State) :
    (expandAllUpdate s).undefinedRead = s.undefinedRead.or (firstUndefined .W s.w expandReadOrder) := by
  rw [expandAllUpdate, forIndexes_expandUpdate_undefinedRead, ← firstUndefined_eraseDups, freshReads_expandIndexes]

/-- With W[0..15] defined EXPAND_ALL notes no read. -/
theorem expandAllUpdate_unread (s : State) (set : ∀ j < 16, definedAt s.w j) :
    (expandAllUpdate s).undefinedRead = s.undefinedRead := by
  have low : ∀ j ∈ expandReadOrder, j < 16 := by decide
  have clean : firstUndefined .W s.w expandReadOrder = none :=
    (firstUndefined_eq_none_iff .W s.w _).mpr fun j read => isDefined_of_set s.w j (set j (low j read))
  rw [expandAllUpdate_undefinedRead, clean, Option.or_none]

/-- Settles O42: the word at place `p` of the read order is the one noted. -/
theorem expandAllNamesTheFirstUndefinedWord : Obligations.ExpandAllNamesTheFirstUndefinedWord := by
  intro s p unlocked unnoted before clear
  have read : firstUndefined .W s.w expandReadOrder = some ⟨.W, expandReadOrder.getD p 0⟩ :=
    firstUndefined_eq_some .W s.w expandReadOrder p p.isLt (fun q lt => before ⟨q, lt.trans p.isLt⟩ lt) clear
  rw [exec_expandAll s unlocked]
  apply stopAtUndefinedRead_of_some
  rw [respond_undefinedRead, expandAllUpdate_undefinedRead, unnoted, Option.none_or, read]

/-! ### What EXPAND_ALL leaves alone, and the schedule of a block -/

/-- The two states differ at most in W and the note. -/
def OnlyExpands (s t : State) : Prop := t = { s with w := t.w, undefinedRead := t.undefinedRead }

theorem OnlyExpands.trans (s t u : State) (a : OnlyExpands s t) (c : OnlyExpands t u) : OnlyExpands s u := by
  rw [OnlyExpands] at a c
  rw [a] at c
  exact c

theorem expandAllUpdate_onlyExpands (s : State) : OnlyExpands s (expandAllUpdate s) :=
  forIndexes_keeps expandUpdate OnlyExpands (fun _ => rfl) OnlyExpands.trans (fun _ _ => rfl) expandIndexes s

/-- Settles O41: EXPAND_ALL runs the fold of the recurrence over what W holds. -/
theorem expandAllComputesTheSchedule : Obligations.ExpandAllComputesTheSchedule := by
  intro s b unlocked block
  have low := expandAllUpdate_low s
  have high := expandAllUpdate_high s b block
  have loaded := expandAllUpdate_of_defined s b block
  have unread := expandAllUpdate_unread s
  have frame := expandAllUpdate_onlyExpands s
  rw [exec_expandAll s unlocked]
  generalize expandAllUpdate s = t at low high loaded unread frame
  exact ⟨_, rfl, low, high, congrArg (respond (.ack [])) frame, fun set => ⟨loaded set, unread set⟩⟩

/-- Settles O40: Schedule(b) is the schedule of b, and EXPAND_ALL leaves the schedule of the block that LOAD_BLOCK
wrote. -/
theorem scheduleFollowsTheRecurrence : Obligations.ScheduleFollowsTheRecurrence := by
  intro b
  obtain ⟨block, recurrence⟩ := isSchedule_schedule b
  refine ⟨fun j low => ?_, fun i lo hi => ?_, fun s unlocked => ?_⟩
  · rw [getElem?_eq_wordAt _ j (by omega), getElem?_eq_wordAt b j low, block j low]
  · rw [← wordAt_of_lt _ i hi, recurrence i lo hi, expand, wordAt_of_lt _ (i - 16) (by omega),
      wordAt_of_lt _ (i - 15) (by omega), wordAt_of_lt _ (i - 7) (by omega), wordAt_of_lt _ (i - 2) (by omega)]
    rfl
  · obtain ⟨rs, runs⟩ := runInstrs_unlocked [.loadBlock b, .expandAll] s unlocked (by simp [Instr.wellFormed])
    have loaded : ∀ j < 16, (loadBlockUpdate b s).w[j]? = (b[j]?).map definedWord := getElem?_writeBlock_low s.w b
    refine ⟨_, runs, expandAllUpdate_of_defined (loadBlockUpdate b s) b (fun j low => ?_) fun j low => ?_⟩
    · rw [loaded j low]; simp [low]
    · rw [definedAt, loaded j low]; simp [low]

/-! ### EXPAND_ALL and its steps one by one -/

theorem indexOf_ofNat (i : Nat) (inside : i < 64) : indexOf (BitVec.ofNat 8 i) = i := by
  rw [indexOf, BitVec.toNat_ofNat]
  omega

/-- The effects of EXPAND_STEP at some indexes are the passes of EXPAND_ALL there (R253). -/
theorem effects_expandStep (is : List Nat) (s : State) (inside : ∀ i ∈ is, i < 64) :
    effects (is.map fun i => .expandStep (BitVec.ofNat 8 i)) s = forIndexes expandUpdate is s := by
  induction is generalizing s with
  | nil => rfl
  | cons i is ih =>
    obtain ⟨inside_i, inside_is⟩ := List.forall_mem_cons.mp inside
    have first : effectOf (.expandStep (BitVec.ofNat 8 i)) s = (expandUpdate i s, []) := by
      rw [effectOf, indexOf_ofNat i inside_i]
    rw [forIndexes_cons, ← ih _ inside_is, effects, List.map_cons, List.foldl_cons, first, effects]

/-- Settles O43: the 48 commands complete, and their effects are the passes of EXPAND_ALL. -/
theorem expandAllEqualsStepwise : Obligations.ExpandAllEqualsStepwise := by
  intro s unlocked
  have steps : ∀ i ∈ expandIndexes.map fun i => Instr.expandStep (BitVec.ofNat 8 i), i.wellFormed = true := by decide
  obtain ⟨rs, runs⟩ := runInstrs_unlocked _ s unlocked steps
  rw [effects_expandStep expandIndexes s fun i mem => ((mem_expandIndexes i).mp mem).2] at runs
  rw [exec_expandAll s unlocked, runs]
  rfl

end Sys2Proof.Proofs
end

section
/-! PROOFS. The compression rounds (spec R280 to R283). The idea: ROUND leaves all of V defined, so of several rounds only
the first can read an undefined word of V. Rounds one after another therefore have a closed form, the fold of Round over
the words V and W hold, with the note of the reads of V and then of the reads of W. -/

namespace Sys2Proof.Proofs

open Sys2Proof.Machine Sys2Proof.Safety

/-! ### LOAD_V -/

/-- LOAD_V completes with its update (R280, R362). -/
theorem exec_loadV (s : State) (unlocked : s.err = false) :
    exec .loadV s = .next (respond (.ack []) (loadVUpdate s)) :=
  exec_unlocked .loadV s unlocked rfl

theorem loadVUpdate_undefinedRead (s : State) :
    (loadVUpdate s).undefinedRead = s.undefinedRead.or (firstUndefined .H s.h (List.range 8)) := rfl

/-- With all its words defined an array names none. -/
theorem firstUndefined_range_of_defined {n : Nat} (bank : Bank) (xs : Vector MarkedWord n) (size : Nat)
    (set : ∀ k < size, definedAt xs k) : firstUndefined bank xs (List.range size) = none :=
  (firstUndefined_eq_none_iff bank xs _).mpr fun k read => isDefined_of_set xs k (set k (List.mem_range.mp read))

/-- With H defined LOAD_V copies it, marks included, and notes no read. -/
theorem loadVUpdate_of_defined (s : State) (set : ∀ k < 8, definedAt s.h k) :
    loadVUpdate s = { s with v := s.h } := by
  have copied : definedWords (valuesOf s.h) = s.h :=
    definedWords_valuesOf s.h fun k inside => by simpa [definedAt, inside] using set k inside
  rw [loadVUpdate, copied, noteReads_of_defined s .H s.h _ (firstUndefined_range_of_defined .H s.h 8 set)]

/-- Settles O44: the update writes V as a whole from the words of H, after reading them in increasing index. -/
theorem loadVCopiesTheHashState : Obligations.LoadVCopiesTheHashState := by
  intro s unlocked
  rw [exec_loadV s unlocked]
  refine ⟨⟨_, rfl, fun k inside => ?_, rfl⟩, fun set => ?_, fun k unnoted below clear => ?_⟩
  · exact (getElem?_definedWords (valuesOf s.h) k).trans (by simp [inside, definedWord])
  · rw [loadVUpdate_of_defined s set, respond]
  · apply stopAtUndefinedRead_of_some
    rw [respond_undefinedRead, loadVUpdate_undefinedRead, unnoted, Option.none_or,
      firstUndefined_range .H s.h 8 k (lt_of_mark s.h k _ clear) below clear]

/-! ### What a round reads and does -/

/-- The undefined word that rounds at some indexes one after another name: all of V is read first, and after the first round
only words of W can be undefined (R281, R282). -/
def roundReads (is : List Nat) (s : State) : Option UndefinedRead :=
  (firstUndefined .V s.v (List.range 8)).or (firstUndefined .W s.w is)

/-- An undefined word of V is named before any of W. -/
theorem roundReads_of_undefined (is : List Nat) (s : State) (k : Nat) (below : ∀ j < k, definedAt s.v j)
    (clear : undefinedAt s.v k) : roundReads is s = some ⟨.V, k⟩ := by
  rw [roundReads, firstUndefined_range .V s.v 8 k (lt_of_mark s.v k _ clear) below clear, Option.some_or]

/-- With V defined only the reads of W count. -/
theorem roundReads_of_defined (is : List Nat) (s : State) (set : ∀ k < 8, definedAt s.v k) :
    roundReads is s = firstUndefined .W s.w is := by
  rw [roundReads, firstUndefined_range_of_defined .V s.v 8 set, Option.none_or]

/-- One pass of the fold of R283. -/
def roundPass (k w : Vector Word 64) (v : Vector Word 8) (i : Nat) : Vector Word 8 :=
  roundWords v (wordAt k i) (wordAt w i)

/-- One round: V becomes the round of the words it and W hold, all defined; the reads are noted, and nothing else changes
(R281, R283). -/
theorem roundUpdate_eq (i : Nat) (s : State) :
    roundUpdate i s =
      { s with
        v := definedWords (roundPass s.k (valuesOf s.w) (valuesOf s.v) i)
        undefinedRead := s.undefinedRead.or (roundReads [i] s) } := by
  rw [roundPass, ← valueAt_eq_wordAt, roundReads, ← Option.or_assoc]
  rfl

theorem roundUpdate_v (i : Nat) (s : State) :
    (roundUpdate i s).v = definedWords (roundPass s.k (valuesOf s.w) (valuesOf s.v) i) := by
  rw [roundUpdate_eq]

theorem roundUpdate_undefinedRead (i : Nat) (s : State) :
    (roundUpdate i s).undefinedRead = s.undefinedRead.or (roundReads [i] s) := by
  rw [roundUpdate_eq]

/-- After a round V is defined, so rounds that follow read undefined words of W only (R282). -/
theorem roundReads_roundUpdate (i : Nat) (is : List Nat) (s : State) :
    roundReads is (roundUpdate i s) = firstUndefined .W s.w is := by
  rw [roundReads, roundUpdate_v, firstUndefined_definedWords, Option.none_or]
  rfl

theorem roundReads_cons (i : Nat) (is : List Nat) (s : State) :
    roundReads (i :: is) s = (roundReads [i] s).or (firstUndefined .W s.w is) := by
  rw [roundReads, roundReads, Option.or_assoc, ← firstUndefined_append, List.singleton_append]

/-! ### ROUND -/

/-- ROUND with its index in range completes with its update (R281, R362). -/
theorem exec_round (s : State) (index : BitVec 8) (unlocked : s.err = false) (high : index.toNat ≤ 63) :
    exec (.round index) s = .next (respond (.ack []) (roundUpdate index.toNat s)) :=
  exec_unlocked (.round index) s unlocked (indexWithin_of_lt 63 index (Nat.lt_succ_of_le high))

/-- Round is the source's round (R283). -/
theorem roundWords_eq (a b c d e f g h k w : Word) :
    roundWords #v[a, b, c, d, e, f, g, h] k w =
      #v[(h + bsig1 e + choice e f g + k + w) + (bsig0 a + majority a b c), a, b, c,
        d + (h + bsig1 e + choice e f g + k + w), e, f, g] := rfl

/-- Settles O45: the update writes V as a whole, from the round of what V and W[i] hold. -/
theorem roundUpdatesTheWorkingVariables : Obligations.RoundUpdatesTheWorkingVariables := by
  intro s index a b c d e f g h kw w unlocked high words at_w at_k
  refine ⟨_, exec_round s index unlocked high, ?_, rfl, fun set mark => ?_⟩
  · have constant : wordAt s.k index.toNat = kw := by rw [wordAt, at_k, Option.getD_some]
    have source : wordAt (valuesOf s.w) index.toNat = w.value := by
      rw [← valueAt_eq_wordAt, valueAt_of_getElem? s.w _ w at_w]
    rw [respond_v, roundUpdate_v, roundPass, words, constant, source, roundWords_eq]
  · rw [respond_undefinedRead, roundUpdate_undefinedRead, roundReads_of_defined _ s set,
      firstUndefined_singleton .W s.w _ w at_w, if_pos mark, Option.or_none]

/-- Settles O46: the word noted is the one that the reads of V, then of W[i], name. -/
theorem roundNamesTheFirstUndefinedWord : Obligations.RoundNamesTheFirstUndefinedWord := by
  intro s index unlocked unnoted high
  rw [exec_round s index unlocked high, roundUpdate_eq, unnoted, Option.none_or]
  refine ⟨fun k below clear => ?_, fun set clear => ?_⟩ <;> apply stopAtUndefinedRead_of_some
  · exact roundReads_of_undefined _ s k below clear
  · refine (roundReads_of_defined _ s set).trans ?_
    rw [firstUndefined_cons, isDefined_of_clear s.w _ clear, if_neg Bool.false_ne_true]

/-! ### ROUNDS_ALL -/

/-- At least one round: V becomes the fold of Round over the words it and W hold, all defined; the reads are noted, and
nothing else changes (R281 to R283). -/
theorem forIndexes_roundUpdate (i : Nat) (is : List Nat) (s : State) :
    forIndexes roundUpdate (i :: is) s =
      { s with
        v := definedWords ((i :: is).foldl (roundPass s.k (valuesOf s.w)) (valuesOf s.v))
        undefinedRead := s.undefinedRead.or (roundReads (i :: is) s) } := by
  induction is generalizing i s with
  | nil => exact roundUpdate_eq i s
  | cons j is ih =>
    have reads : (roundUpdate i s).undefinedRead.or (roundReads (j :: is) (roundUpdate i s)) =
        s.undefinedRead.or (roundReads (i :: j :: is) s) := by
      rw [roundUpdate_undefinedRead, roundReads_roundUpdate, Option.or_assoc, ← roundReads_cons]
    have words : valuesOf (roundUpdate i s).v = roundPass s.k (valuesOf s.w) (valuesOf s.v) i := by
      rw [roundUpdate_v, valuesOf_definedWords]
    rw [forIndexes_cons, ih j (roundUpdate i s), reads, words]
    rfl

/-- ROUNDS_ALL in closed form: V becomes Rounds(V, W) (R282, R283). -/
theorem roundsAllUpdate_eq (s : State) :
    roundsAllUpdate s =
      { s with
        v := definedWords (rounds (valuesOf s.v) s.k (valuesOf s.w))
        undefinedRead := s.undefinedRead.or (roundReads roundIndexes s) } := by
  have start : roundIndexes = 0 :: List.range' 1 63 := rfl
  rw [roundsAllUpdate, start, forIndexes_roundUpdate]
  rfl

/-- ROUNDS_ALL completes with its update (R282, R362). -/
theorem exec_roundsAll (s : State) (unlocked : s.err = false) :
    exec .roundsAll s = .next (respond (.ack []) (roundsAllUpdate s)) :=
  exec_unlocked .roundsAll s unlocked rfl

/-- The tuples of R283: v_0 = v, v_(i+1) = Round(v_i, K[i], s[i]). -/
def roundTuple (v : Vector Word 8) (k w : Vector Word 64) (i : Nat) : Vector Word 8 :=
  (List.range i).foldl (roundPass k w) v

theorem roundTuple_succ (v : Vector Word 8) (k w : Vector Word 64) (i : Nat) :
    roundTuple v k w (i + 1) = roundWords (roundTuple v k w i) (wordAt k i) (wordAt w i) := by
  rw [roundTuple, List.range_succ, List.foldl_append]
  rfl

/-- Rounds(v, s) is the 64th tuple (R283). -/
theorem roundTuple_last (v : Vector Word 8) (k w : Vector Word 64) : roundTuple v k w 64 = rounds v k w := rfl

/-- Settles O47: the closed form of ROUNDS_ALL, whose fold runs through the tuples of R283. -/
theorem roundsAllFoldsTheRound : Obligations.RoundsAllFoldsTheRound := by
  refine ⟨roundWords_eq, fun s unlocked => ?_⟩
  refine ⟨_, roundTuple (valuesOf s.v) s.k (valuesOf s.w), rfl, fun i _ => roundTuple_succ _ _ _ i,
    roundTuple_last _ _ _, exec_roundsAll s unlocked, ?_, ?_, fun setV setW => ?_⟩
  · rw [respond_v, roundsAllUpdate_eq, roundTuple_last]
  · rw [roundsAllUpdate_eq]
    rfl
  · have clean : roundReads roundIndexes s = none :=
      (roundReads_of_defined _ s setV).trans (firstUndefined_range_of_defined .W s.w 64 setW)
    rw [respond_undefinedRead, roundsAllUpdate_eq, clean, Option.or_none]

/-- Settles O48: the word noted is the one that the reads of V, then of W in increasing index, name. -/
theorem roundsAllNamesTheFirstUndefinedWord : Obligations.RoundsAllNamesTheFirstUndefinedWord := by
  intro s unlocked unnoted
  rw [exec_roundsAll s unlocked, roundsAllUpdate_eq, unnoted, Option.none_or]
  refine ⟨fun k below clear => ?_, fun set i below clear => ?_⟩ <;> apply stopAtUndefinedRead_of_some
  · exact roundReads_of_undefined _ s k below clear
  · exact (roundReads_of_defined _ s set).trans
      (firstUndefined_range .W s.w 64 i (lt_of_mark s.w i _ clear) below clear)

/-! ### ROUNDS_ALL and its rounds one by one -/

/-- The effects of commands that each make one pass of a loop are the loop. -/
theorem effects_map (command : Nat → Instr) (f : Nat → State → State) (is : List Nat)
    (pass : ∀ i ∈ is, ∀ s, (effectOf (command i) s).1 = f i s) (s : State) :
    effects (is.map command) s = forIndexes f is s := by
  induction is generalizing s with
  | nil => rfl
  | cons i is ih =>
    obtain ⟨pass_i, pass_is⟩ := List.forall_mem_cons.mp pass
    rw [forIndexes_cons, ← pass_i s, ← ih pass_is]
    rfl

/-- Settles O49: the 64 commands complete, and their effects are the passes of ROUNDS_ALL. -/
theorem roundsAllEqualsStepwise : Obligations.RoundsAllEqualsStepwise := by
  intro s unlocked
  have steps : ∀ i ∈ roundIndexes.map fun i => Instr.round (BitVec.ofNat 8 i), i.wellFormed = true := by decide
  have pass : ∀ i ∈ roundIndexes, ∀ t, (effectOf (.round (BitVec.ofNat 8 i)) t).1 = roundUpdate i t := by
    intro i mem t
    rw [effectOf, indexOf_ofNat i (List.mem_range.mp mem)]
  have loop : effects (roundIndexes.map fun i => .round (BitVec.ofNat 8 i)) s = roundsAllUpdate s :=
    effects_map _ roundUpdate roundIndexes pass s
  obtain ⟨rs, runs⟩ := runInstrs_unlocked _ s unlocked steps
  rw [exec_roundsAll s unlocked, runs, loop]
  generalize roundsAllUpdate s = t
  rfl

end Sys2Proof.Proofs
end

section
/-! PROOFS. The accumulator and the whole block (spec R310 to R312). The idea: COMPRESS_BLOCK has a closed form.
LOAD_BLOCK and EXPAND_ALL leave W defined and LOAD_V leaves V defined, so of its five parts only the reads of H, by
LOAD_V and again by ACCUM, can meet an undefined word. -/

namespace Sys2Proof.Proofs

open Sys2Proof.Machine Sys2Proof.Safety Sys2Proof.HostSide

/-! ### ACCUM -/

/-- ACCUM completes with its update (R310, R362). -/
theorem exec_accum (s : State) (unlocked : s.err = false) :
    exec .accum s = .next (respond (.ack []) (accumUpdate s)) :=
  exec_unlocked .accum s unlocked rfl

/-- The undefined word that ACCUM names: all of H is read before V (R310). -/
def accumReads (s : State) : Option UndefinedRead :=
  (firstUndefined .H s.h (List.range 8)).or (firstUndefined .V s.v (List.range 8))

/-- ACCUM writes H as a whole from the words H and V hold; the reads are noted, and nothing else changes (R310). -/
theorem accumUpdate_eq (s : State) :
    accumUpdate s =
      { s with
        h := definedWords (addWords (valuesOf s.h) (valuesOf s.v))
        undefinedRead := s.undefinedRead.or (accumReads s) } := by
  rw [accumReads, ← Option.or_assoc]
  rfl

/-- With H defined only the reads of V count. -/
theorem accumReads_of_defined (s : State) (set : ∀ k < 8, definedAt s.h k) :
    accumReads s = firstUndefined .V s.v (List.range 8) := by
  rw [accumReads, firstUndefined_range_of_defined .H s.h 8 set, Option.none_or]

theorem getElem_addWords (a b : Vector Word 8) (k : Nat) (inside : k < 8) : (addWords a b)[k] = a[k] + b[k] := by
  simp [addWords, addWord]

/-- Settles O50: the update writes H as a whole from the wordwise sum, and the reads of defined words leave no note. -/
theorem accumAddsWordByWord : Obligations.AccumAddsWordByWord := by
  intro s unlocked
  rw [exec_accum s unlocked, accumUpdate_eq]
  refine ⟨_, rfl, fun k inside => ?_, rfl, fun setH setV => ?_⟩
  · rw [respond_h, getElem_definedWords, getElem_addWords, getElem_valuesOf, getElem_valuesOf, BitVec.ofNat_add,
      BitVec.ofNat_toNat, BitVec.ofNat_toNat, BitVec.setWidth_eq, BitVec.setWidth_eq, definedWord]
  · rw [respond_undefinedRead, accumReads_of_defined s setH, firstUndefined_range_of_defined .V s.v 8 setV,
      Option.or_none]

/-- Settles O51: the word noted is the one that the reads of H, then of V, name. -/
theorem accumNamesTheFirstUndefinedWord : Obligations.AccumNamesTheFirstUndefinedWord := by
  intro s unlocked unnoted
  rw [exec_accum s unlocked, accumUpdate_eq, unnoted, Option.none_or]
  refine ⟨fun k below clear => ?_, fun set k below clear => ?_⟩ <;> apply stopAtUndefinedRead_of_some
  · rw [respond_undefinedRead, accumReads, firstUndefined_range .H s.h 8 k (lt_of_mark s.h k _ clear) below clear,
      Option.some_or]
  · exact (accumReads_of_defined s set).trans
      (firstUndefined_range .V s.v 8 k (lt_of_mark s.v k _ clear) below clear)

/-! ### COMPRESS_BLOCK in closed form -/

/-- LOAD_BLOCK b and EXPAND_ALL leave W = Schedule(b), all defined, and change nothing else (R251, R254). -/
theorem expandAllUpdate_loadBlockUpdate (b : Block) (s : State) :
    expandAllUpdate (loadBlockUpdate b s) = { s with w := definedWords (schedule b) } := by
  have loaded : ∀ j < 16, (loadBlockUpdate b s).w[j]? = (b[j]?).map definedWord := getElem?_writeBlock_low s.w b
  have set : ∀ j < 16, definedAt (loadBlockUpdate b s).w j := fun j low => by simp [definedAt, loaded j low, low]
  have block : ∀ j < 16, (loadBlockUpdate b s).w[j]?.map MarkedWord.value = b[j]? := fun j low => by
    simp [loaded j low, low]
  rw [expandAllUpdate_onlyExpands (loadBlockUpdate b s), expandAllUpdate_of_defined _ b block set,
    expandAllUpdate_unread _ set]
  rfl

/-- With V and W defined ROUNDS_ALL changes V alone (R282). -/
theorem roundsAllUpdate_of_definedWords (s : State) (v : Vector Word 8) (w : Vector Word 64) :
    roundsAllUpdate { s with v := definedWords v, w := definedWords w } =
      { s with v := definedWords (rounds v s.k w), w := definedWords w } := by
  rw [roundsAllUpdate_eq]
  simp only [roundReads, firstUndefined_definedWords, valuesOf_definedWords, Option.or_none]

/-- COMPRESS_BLOCK in closed form: H, V and W are written as a whole, and of the reads only those of H can be noted
(R311, R312). -/
theorem compressUpdate_eq (b : Block) (s : State) :
    compressUpdate b s =
      { s with
        h := definedWords (compress s.k (valuesOf s.h) b)
        v := definedWords (rounds (valuesOf s.h) s.k (schedule b))
        w := definedWords (schedule b)
        undefinedRead := s.undefinedRead.or (firstUndefined .H s.h (List.range 8)) } := by
  have beforeAccum : roundsAllUpdate (loadVUpdate (expandAllUpdate (loadBlockUpdate b s))) =
      { s with
        v := definedWords (rounds (valuesOf s.h) s.k (schedule b))
        w := definedWords (schedule b)
        undefinedRead := s.undefinedRead.or (firstUndefined .H s.h (List.range 8)) } := by
    rw [expandAllUpdate_loadBlockUpdate]
    exact roundsAllUpdate_of_definedWords (loadVUpdate s) (valuesOf s.h) (schedule b)
  rw [compressUpdate, beforeAccum, accumUpdate_eq]
  simp only [accumReads, firstUndefined_definedWords, valuesOf_definedWords, Option.or_none, Option.or_assoc,
    Option.or_self, compress]

/-- COMPRESS_BLOCK completes with its update (R311, R362). -/
theorem exec_compressBlock (b : Block) (s : State) (unlocked : s.err = false) :
    exec (.compressBlock b) s = .next (respond (.ack []) (compressUpdate b s)) :=
  exec_unlocked (.compressBlock b) s unlocked rfl

/-- Settles O52: the closed form, whose one list of reads names no word when H is defined. -/
theorem compressBlockComputesCompress : Obligations.CompressBlockComputesCompress := by
  intro s b unlocked
  rw [exec_compressBlock b s unlocked, compressUpdate_eq]
  refine ⟨_, rfl, rfl, fun set => ?_⟩
  rw [respond_undefinedRead, firstUndefined_range_of_defined .H s.h 8 set, Option.or_none]

/-! ### Where COMPRESS_BLOCK stops -/

/-- The spec's model names only the read that is noted (R366). -/
theorem undefinedRead_of_fault (t : State) (read : UndefinedRead)
    (stopped : stopAtUndefinedRead (.next t) = .fault read) : t.undefinedRead = some read := by
  cases noted : t.undefinedRead with
  | none => rw [stopAtUndefinedRead_of_none t noted] at stopped; cases stopped
  | some first => rw [stopAtUndefinedRead_of_some t first noted] at stopped; cases stopped; rfl

/-- A word named among reads of an array is a word of that array (R366). -/
theorem name_of_firstUndefined {n : Nat} (bank : Bank) (xs : Vector MarkedWord n) (reads : List Nat)
    (read : UndefinedRead) (named : firstUndefined bank xs reads = some read) : read.name = bank := by
  obtain ⟨i, -, rfl⟩ := Option.map_eq_some_iff.mp named
  rfl

/-- Settles O53: the closed form notes a read of H and no other. -/
theorem compressBlockNamesTheLowestUndefinedHash : Obligations.CompressBlockNamesTheLowestUndefinedHash := by
  intro s b unlocked unnoted
  rw [exec_compressBlock b s unlocked, compressUpdate_eq, unnoted, Option.none_or]
  refine ⟨fun k below clear => ?_, fun read stopped => ?_⟩
  · apply stopAtUndefinedRead_of_some
    exact firstUndefined_range .H s.h 8 k (lt_of_mark s.h k _ clear) below clear
  · exact name_of_firstUndefined .H s.h (List.range 8) read (undefinedRead_of_fault _ read stopped)

/-! ### COMPRESS_BLOCK and its five commands one by one -/

/-- Settles O54: the five commands complete, and their effects one after another are COMPRESS_BLOCK's. -/
theorem compressBlockEqualsStepwise : Obligations.CompressBlockEqualsStepwise := by
  intro s b unlocked
  have parts : effects [.loadBlock b, .expandAll, .loadV, .roundsAll, .accum] s = compressUpdate b s := rfl
  obtain ⟨rs, runs⟩ := runInstrs_unlocked [.loadBlock b, .expandAll, .loadV, .roundsAll, .accum] s unlocked
    (by simp [Instr.wellFormed])
  rw [exec_compressBlock b s unlocked, runs, parts]
  generalize compressUpdate b s = t
  rfl

/-! ### COMPRESS_BLOCK over blocks -/

/-- No list of effects touches the ROMs, the error registers or the port (R37, R363, R365). -/
theorem effects_keeps (is : List Instr) (s : State) : SameFixed s (effects is s) := by
  induction is generalizing s with
  | nil => exact SameFixed.refl s
  | cons i is ih => exact (effectOf_keeps i s).trans (ih _)

/-- From a defined H, COMPRESS_BLOCK over blocks chains Compress and notes no read (R312). -/
theorem effects_compressBlocks (blocks : List Block) (s : State) (hash : Vector Word 8)
    (holds : s.h = definedWords hash) :
    (effects (blocks.map .compressBlock) s).h = definedWords (chain s.k hash blocks) ∧
      (effects (blocks.map .compressBlock) s).undefinedRead = s.undefinedRead := by
  induction blocks generalizing s hash with
  | nil => exact ⟨holds, rfl⟩
  | cons b blocks ih =>
    have first := compressUpdate_eq b s
    rw [holds, valuesOf_definedWords, firstUndefined_definedWords, Option.or_none] at first
    obtain ⟨chained, unread⟩ := ih (compressUpdate b s) (compress s.k hash b) (by rw [first])
    rw [(compressUpdate_keeps b s).k] at chained
    exact ⟨chained, unread.trans (by rw [first])⟩

/-- H_j of R312: Compress chained over the first j blocks. -/
def hashAfter (k : Vector Word 64) (h : Vector Word 8) (blocks : List Block) (j : Nat) : Vector Word 8 :=
  chain k h (blocks.take j)

theorem hashAfter_succ (k : Vector Word 64) (h : Vector Word 8) (blocks : List Block) (j : Nat)
    (inside : j < blocks.length) :
    hashAfter k h blocks (j + 1) = compress k (hashAfter k h blocks j) blocks[j] := by
  rw [hashAfter, chain, List.take_succ_eq_append_getElem inside, List.foldl_append]
  rfl

/-- H_n chains all the blocks (R312). -/
theorem hashAfter_length (k : Vector Word 64) (h : Vector Word 8) (blocks : List Block) :
    hashAfter k h blocks blocks.length = chain k h blocks := by
  rw [hashAfter, List.take_length]

/-- Settles O55: INIT leaves H = IV, defined, and the blocks chain Compress from there. -/
theorem compressionChainsOverBlocks : Obligations.CompressionChainsOverBlocks := by
  refine ⟨fun k h b j inside => getElem_addWords h _ j inside, fun s b unlocked => ?_, fun s blocks unlocked => ?_⟩
  · exact ⟨_, exec_compressBlock b s unlocked, by rw [respond_h, compressUpdate_eq]⟩
  · have ok : ∀ i ∈ Instr.init :: blocks.map .compressBlock, i.wellFormed = true := by simp [Instr.wellFormed]
    obtain ⟨rs, runs⟩ := runInstrs_unlocked _ s unlocked ok
    have fixed := effects_keeps (.init :: blocks.map .compressBlock) s
    obtain ⟨chained, unread⟩ := effects_compressBlocks blocks { s with h := definedWords s.iv } s.iv rfl
    rw [← hashAfter_length] at chained
    exact ⟨_, hashAfter s.k s.iv blocks, runs, rfl, hashAfter_succ s.k s.iv blocks, chained,
      fixed.err.trans unlocked, fixed.k, fixed.iv, unread⟩

end Sys2Proof.Proofs
end

section
/-! PROOFS. Bytes and words on the host's side (spec R74, R75, R334, R336). The idea: a word and its four big-endian bytes
determine each other, and the digest is a list of such fours. -/

namespace Sys2Proof.Proofs

open Sys2Proof.HostSide

/-! ### Lists cut into images of one length -/

/-- Where every image has `size` elements, place `size * i + j` is place `j` of the image of element `i`. -/
theorem getElem?_flatMap_of_length {α β : Type} (f : α → List β) (size : Nat) (whole : ∀ a, (f a).length = size)
    (xs : List α) (i j : Nat) (a : α) (at_i : xs[i]? = some a) (inside : j < size) :
    (xs.flatMap f)[size * i + j]? = (f a)[j]? := by
  induction xs generalizing i with
  | nil => simp at at_i
  | cons x xs ih =>
    rw [List.flatMap_cons]
    cases i with
    | zero =>
      obtain rfl : x = a := by simpa using at_i
      rw [Nat.mul_zero, Nat.zero_add, List.getElem?_append_left (by rwa [whole])]
    | succ i =>
      rw [List.getElem?_append_right (by rw [whole, Nat.mul_succ]; omega), ← ih i (by simpa using at_i), whole,
        Nat.mul_succ]
      congr 1
      omega

/-! ### A word and its bytes -/

/-- Byte m of a word is its bits 31-8m down to 24-8m (R336). -/
theorem wordBytes_eq (x : Word) : wordBytes x = (List.range 4).map fun m => x.extractLsb' (24 - 8 * m) 8 := rfl

theorem wordBytes_length (x : Word) : (wordBytes x).length = 4 := rfl

/-- Forming a word from its own bytes gives it back (R74, R75). -/
theorem formWord_wordBytes (x : Word) :
    formWord (x.extractLsb' 24 8) (x.extractLsb' 16 8) (x.extractLsb' 8 8) (x.extractLsb' 0 8) = x := by
  apply BitVec.eq_of_toNat_eq
  simp only [formWord, BitVec.toNat_ofNat, BitVec.extractLsb'_toNat, Nat.shiftRight_eq_div_pow]
  omega

/-- A word formed from four bytes, as a number (R74). -/
theorem formWord_toNat (b0 b1 b2 b3 : Byte) :
    (formWord b0 b1 b2 b3).toNat = b0.toNat * 2 ^ 24 + b1.toNat * 2 ^ 16 + b2.toNat * 2 ^ 8 + b3.toNat := by
  rw [formWord, BitVec.toNat_ofNat]
  omega

/-- Eight bits of a word, as a number. -/
theorem extractLsb'_eq_of_toNat {x : Word} {start : Nat} {b : Byte} (bits : x.toNat / 2 ^ start % 2 ^ 8 = b.toNat) :
    x.extractLsb' start 8 = b := by
  apply BitVec.eq_of_toNat_eq
  rw [BitVec.extractLsb'_toNat, Nat.shiftRight_eq_div_pow, bits]

/-- The bytes of a word formed from four bytes are those four (R74, R75). -/
theorem wordBytes_formWord (b0 b1 b2 b3 : Byte) : wordBytes (formWord b0 b1 b2 b3) = [b0, b1, b2, b3] := by
  have number := formWord_toNat b0 b1 b2 b3
  rw [wordBytes, extractLsb'_eq_of_toNat (b := b0) (by omega), extractLsb'_eq_of_toNat (b := b1) (by omega),
    extractLsb'_eq_of_toNat (b := b2) (by omega), extractLsb'_eq_of_toNat (b := b3) (by omega)]

/-! ### The digest -/

theorem assembleDigest_cons (d : Word) (ds : List Word) :
    assembleDigest (d :: ds) = wordBytes d ++ assembleDigest ds := rfl

theorem assembleDigest_length (ds : List Word) : (assembleDigest ds).length = 4 * ds.length := by
  induction ds with
  | nil => rfl
  | cons d ds ih => rw [assembleDigest_cons, List.length_append, wordBytes_length, ih, List.length_cons]; omega

/-- Settles O57: each word gives its four bytes, in order. -/
theorem digestIsThirtyTwoBytes : Obligations.DigestIsThirtyTwoBytes := by
  intro ds eight
  refine ⟨by rw [assembleDigest_length, eight], fun k m d inside at_k => ?_⟩
  rw [assembleDigest, getElem?_flatMap_of_length wordBytes 4 wordBytes_length ds k m d at_k inside, wordBytes_eq,
    List.getElem?_map, List.getElem?_range inside, Option.map_some]

/-- Settles O58, word by word. -/
theorem wordFormationInvertsWordBytes : Obligations.WordFormationInvertsWordBytes := by
  intro ws
  induction ws with
  | nil => rfl
  | cons w ws ih =>
    rw [assembleDigest_cons, wordBytes, List.cons_append, List.cons_append, List.cons_append, List.cons_append,
      List.nil_append, formWords, formWord_wordBytes, ih]

end Sys2Proof.Proofs
end

section
/-! PROOFS. The host's padding (spec R330 to R334). The idea: bits and numbers, bits and bytes, bytes and words determine
each other, and the padded length fills bytes, words and blocks, so no cut loses anything. -/

namespace Sys2Proof.Proofs

open Sys2Proof.HostSide

/-! ### Bits and numbers -/

/-- The last bit of a number is its parity, the others are the bits of its half. -/
theorem natBits_succ (width n : Nat) : natBits (width + 1) n = natBits width (n / 2) ++ [n.testBit 0] := by
  rw [natBits, List.range_succ, List.map_append, natBits]
  congr 1
  · refine List.map_congr_left fun j mem => ?_
    have inside := List.mem_range.mp mem
    rw [show width + 1 - 1 - j = width - 1 - j + 1 by omega, Nat.testBit_succ]
  · simp

theorem bitsToNat_concat (bits : List Bool) (b : Bool) : bitsToNat (bits ++ [b]) = 2 * bitsToNat bits + b.toNat := by
  rw [bitsToNat, List.foldl_append]
  rfl

/-- Reading back the bits of a number gives its low part (R331, R337). -/
theorem bitsToNat_natBits (width n : Nat) : bitsToNat (natBits width n) = n % 2 ^ width := by
  induction width generalizing n with
  | zero => rw [pow_zero, Nat.mod_one]; rfl
  | succ width ih =>
    rw [natBits_succ, bitsToNat_concat, ih, Nat.toNat_testBit, pow_zero, Nat.div_one, pow_succ', Nat.mod_mul,
      Nat.add_comm]

/-- The bits of the number a bit sequence stands for are the sequence (R331, R337). -/
theorem natBits_bitsToNat (bits : List Bool) : natBits bits.length (bitsToNat bits) = bits := by
  induction bits using List.reverseRecOn with
  | nil => rfl
  | append_singleton bits b ih =>
    have half : (2 * bitsToNat bits + b.toNat) / 2 = bitsToNat bits := by have := b.toNat_lt; omega
    have parity : (2 * bitsToNat bits + b.toNat).testBit 0 = b := by cases b <;> simp
    rw [List.length_append, List.length_singleton, bitsToNat_concat, natBits_succ, half, parity, ih]

theorem getElem?_natBits (width n j : Nat) (inside : j < width) :
    (natBits width n)[j]? = some (n.testBit (width - 1 - j)) := by
  rw [natBits, List.getElem?_map, List.getElem?_range inside, Option.map_some]

/-! ### Bits and bytes -/

theorem byteBits_eq (b : Byte) : byteBits b = natBits 8 b.toNat := rfl

theorem byteBits_length (b : Byte) : (byteBits b).length = 8 := rfl

/-- The bits of the byte that eight bits make are those eight (R330, R337). -/
theorem byteBits_ofNat_bitsToNat (bits : List Bool) (eight : bits.length = 8) :
    byteBits (BitVec.ofNat 8 (bitsToNat bits)) = bits := by
  have low : bitsToNat bits % 2 ^ 8 = bitsToNat bits := by
    rw [← eight, ← bitsToNat_natBits, natBits_bitsToNat]
  rw [byteBits_eq, BitVec.toNat_ofNat, low, ← eight, natBits_bitsToNat]

/-- Cutting a sequence that whole pieces fill, and mapping each piece to itself, gives the sequence back. -/
theorem flatMap_pieces {α : Type} (f : List α → List α) {size count : Nat} {xs : List α}
    (exact_fit : size * count = xs.length) (same : ∀ p, p.length = size → f p = p) :
    (pieces size count xs).flatMap f = xs := by
  have pieceLength := length_of_mem_pieces exact_fit.le
  rw [List.flatMap_def, List.map_congr_left fun p mem => same p (pieceLength p mem), List.map_id', pieces_flatten exact_fit]

/-- The bits of the bytes of a bit sequence that whole bytes fill are the sequence. -/
theorem messageBits_bitsToBytes (bits : List Bool) (whole : 8 * (bits.length / 8) = bits.length) :
    messageBits (bitsToBytes bits) = bits := by
  rw [messageBits, bitsToBytes, List.flatMap_map]
  exact flatMap_pieces _ whole byteBits_ofNat_bitsToNat

/-! ### The padding -/

/-- The 0 bits are fewer than one block and complete the last one (R331). -/
theorem zeroBits_spec (len : Nat) : zeroBits len < 512 ∧ (len + 1 + zeroBits len + 64) % 512 = 0 := by
  rw [zeroBits]
  omega

/-- The four parts of the padding, one after another (R331). -/
theorem padBits_eq (bits : List Bool) :
    padBits bits = bits ++ true :: (List.replicate (zeroBits bits.length) false ++ natBits 64 bits.length) := by
  simp [padBits]

/-- After the 1 bit come the 0 bits. -/
theorem getElem?_padBits_zero (bits : List Bool) (j : Nat) (low : bits.length + 1 ≤ j)
    (high : j < bits.length + 1 + zeroBits bits.length) : (padBits bits)[j]? = some false := by
  have place : j - bits.length = j - (bits.length + 1) + 1 := by omega
  rw [padBits_eq, List.getElem?_append_right (by omega), place, List.getElem?_cons_succ,
    List.getElem?_append_left (by rw [List.length_replicate]; omega), List.getElem?_replicate, if_pos (by omega)]

/-- After the 0 bits comes the length field. -/
theorem drop_padBits (bits : List Bool) :
    (padBits bits).drop (bits.length + 1 + zeroBits bits.length) = natBits 64 bits.length := by
  refine List.drop_left' ?_
  simp
  omega

/-! ### The padded bytes, their blocks and their words -/

/-- A padded message fills whole blocks, floor((n + 8) / 64) + 1 of them for n bytes (R331). -/
theorem padMessage_length (message : List Byte) :
    (padMessage message).length = 64 * ((message.length + 8) / 64 + 1) := by
  obtain ⟨few, whole⟩ := zeroBits_spec (8 * message.length)
  rw [padMessage, bitsToBytes, List.length_map, pieces_length, padBits_length, messageBits_length]
  omega

/-- The bits of the padded bytes are the padding of the message's bits (R330, R331). -/
theorem messageBits_padMessage (message : List Byte) :
    messageBits (padMessage message) = padBits (messageBits message) := by
  refine messageBits_bitsToBytes _ ?_
  obtain ⟨-, whole⟩ := zeroBits_spec (messageBits message).length
  rw [padBits_length]
  omega

/-- The bytes of the words of `n` fours of bytes are those bytes (R334). -/
theorem assembleDigest_formWords (n : Nat) (bs : List Byte) (fours : bs.length = 4 * n) :
    assembleDigest (formWords bs) = bs := by
  induction n generalizing bs with
  | zero => rw [List.length_eq_zero_iff.mp fours]; rfl
  | succ n ih =>
    match bs, fours with
    | b0 :: b1 :: b2 :: b3 :: rest, fours =>
      have later : rest.length = 4 * n := by simpa [Nat.mul_succ] using fours
      rw [formWords, assembleDigest_cons, wordBytes_formWord, ih rest later]
      rfl

/-- A block of 64 bytes is 16 words (R333, R334). -/
theorem formWords_length (n : Nat) (bs : List Byte) (fours : bs.length = 4 * n) : (formWords bs).length = n := by
  have bytes := assembleDigest_length (formWords bs)
  rw [assembleDigest_formWords n bs fours] at bytes
  omega

/-- The padded bytes are cut into whole blocks (R333). -/
theorem padMessage_blocks (message : List Byte) :
    64 * ((padMessage message).length / 64) = (padMessage message).length := by
  rw [padMessage_length]
  omega

theorem messageBlocks_length (message : List Byte) :
    (messageBlocks message).length = (message.length + 8) / 64 + 1 := by
  rw [messageBlocks, blockBytesOf, List.length_map, pieces_length, padMessage_length]
  exact Nat.mul_div_cancel_left _ (by decide)

/-- Each block of a message has 16 words (R333, R334). -/
theorem length_of_mem_messageBlocks (message : List Byte) (ws : List Word) (mem : ws ∈ messageBlocks message) :
    ws.length = 16 := by
  obtain ⟨bs, piece, rfl⟩ := List.mem_map.mp mem
  exact formWords_length 16 bs (length_of_mem_pieces (padMessage_blocks message).le bs piece)

/-- The bytes of the blocks' words, in order, are the padded bytes (R333, R334). -/
theorem flatten_messageBlocks (message : List Byte) :
    (messageBlocks message).flatten.flatMap wordBytes = padMessage message := by
  rw [messageBlocks, ← List.flatMap_def, List.flatMap_assoc]
  exact flatMap_pieces _ (padMessage_blocks message) (assembleDigest_formWords 16)

/-- Settles O56: the parts of the padding are read off one after another, and every cut of the padded message into bytes,
words and blocks fits exactly. -/
theorem paddingMakesWholeBlocks : Obligations.PaddingMakesWholeBlocks := by
  refine ⟨fun bits short => ?_, fun message _ => ?_⟩
  · obtain ⟨few, whole⟩ := zeroBits_spec bits.length
    refine ⟨by rw [padBits_length, whole], padBits_length bits, fun k whole_k => by omega, ?_, ?_,
      getElem?_padBits_zero bits, ?_⟩
    · rw [padBits_eq, List.take_left]
    · rw [padBits_eq, List.getElem?_append_right le_rfl, Nat.sub_self, List.getElem?_cons_zero]
    · rw [drop_padBits, bitsToNat_natBits, Nat.mod_eq_of_lt short]
  · refine ⟨fun i j b at_i inside => ?_, messageBits_length message, messageBits_padMessage message,
      flatten_messageBlocks message, length_of_mem_messageBlocks message, messageBlocks_length message⟩
    rw [messageBits, getElem?_flatMap_of_length byteBits 8 byteBits_length message i j b at_i inside, byteBits_eq,
      getElem?_natBits 8 _ j inside, BitVec.testBit_toNat]

end Sys2Proof.Proofs
end

section
/-! PROOFS. Requests that carry instructions, issued one by one or waiting in the inbox (spec R72, R335). The idea: no
effect looks at the port, so well-formed instructions leave an unlocked engine with their effects, and answer one after
another, in both ways alike. -/

namespace Sys2Proof.Proofs

open Sys2Proof.Machine Sys2Proof.HostSide

/-! ### Effects do not look at the port -/

/-- `s` with these host actions waiting and these responses given. -/
def withPort (waiting : List HostAction) (given : List Response) (s : State) : State :=
  { s with inbox := waiting, responses := given }

theorem withPort_self (s : State) : withPort s.inbox s.responses s = s := rfl

variable (waiting : List HostAction) (given : List Response)

/-- A loop does not look at the port if its passes do not. -/
theorem forIndexes_withPort (f : Nat → State → State)
    (pass : ∀ i s, f i (withPort waiting given s) = withPort waiting given (f i s)) :
    ∀ (is : List Nat) (s : State), forIndexes f is (withPort waiting given s) = withPort waiting given (forIndexes f is s)
  | [], _ => rfl
  | i :: is, s => by rw [forIndexes_cons, pass, forIndexes_withPort f pass is, forIndexes_cons]

theorem roundsAllUpdate_withPort (s : State) :
    roundsAllUpdate (withPort waiting given s) = withPort waiting given (roundsAllUpdate s) :=
  forIndexes_withPort waiting given roundUpdate (fun _ _ => rfl) roundIndexes s

theorem compressUpdate_withPort (b : Block) (s : State) :
    compressUpdate b (withPort waiting given s) = withPort waiting given (compressUpdate b s) := by
  rw [compressUpdate_eq, compressUpdate_eq]
  rfl

/-- An instruction has the same results whatever the port holds, and the same effect beside it. -/
theorem effectOf_withPort (i : Instr) (s : State) :
    effectOf i (withPort waiting given s) = (withPort waiting given (effectOf i s).1, (effectOf i s).2) := by
  cases i with
  | expandAll =>
    exact congrArg (·, []) (forIndexes_withPort waiting given expandUpdate (fun _ _ => rfl) expandIndexes s)
  | roundsAll => exact congrArg (·, []) (roundsAllUpdate_withPort waiting given s)
  | compressBlock b => exact congrArg (·, []) (compressUpdate_withPort waiting given b s)
  | _ => rfl

/-! ### Instructions one after another -/

theorem effects_cons (i : Instr) (is : List Instr) (s : State) : effects (i :: is) s = effects is (effectOf i s).1 := rfl

theorem effects_append (is js : List Instr) (s : State) : effects (is ++ js) s = effects js (effects is s) :=
  List.foldl_append

/-- The result words of several instructions one after another, those of each instruction by themselves. -/
def answers : List Instr → State → List (List Word)
  | [], _ => []
  | i :: is, s => (effectOf i s).2 :: answers is (effectOf i s).1

theorem answers_append (is js : List Instr) (s : State) :
    answers (is ++ js) s = answers is s ++ answers js (effects is s) := by
  induction is generalizing s with
  | nil => rfl
  | cons i is ih => rw [List.cons_append, answers, ih, answers, List.cons_append, effects_cons]

/-- The responses given after instructions with these results, the latest first. -/
def acked (results : List (List Word)) (given : List Response) : List Response := (results.map .ack).reverse ++ given

theorem acked_cons (words : List Word) (results : List (List Word)) (given : List Response) :
    acked (words :: results) given = acked results (.ack words :: given) := by
  simp [acked]

/-- The latest results stand first. -/
theorem acked_append (earlier later : List (List Word)) (given : List Response) :
    acked (earlier ++ later) given = (later.map .ack).reverse ++ acked earlier given := by
  simp [acked]

/-- The request of a well-formed instruction, in an unlocked engine, has the instruction's effect and answers its results. -/
theorem transact_encode (i : Instr) (s : State) (unlocked : s.err = false) (ok : i.wellFormed = true) :
    transact (encode i) (withPort waiting given s) =
      .next (withPort waiting (.ack (effectOf i s).2 :: given) (effectOf i s).1) := by
  rw [transact_of_decode _ i _ (decodeOfEncode i), exec_unlocked i (withPort waiting given s) unlocked ok,
    effectOf_withPort]
  rfl

/-- So has it where it waits as the next host action (R72). -/
theorem step_encode (i : Instr) (s : State) (unlocked : s.err = false) (ok : i.wellFormed = true) :
    core.step (withPort (.request (encode i) :: waiting) given s) =
      .next (withPort waiting (.ack (effectOf i s).2 :: given) (effectOf i s).1) :=
  (step_of_request (withPort (.request (encode i) :: waiting) given s) (encode i) waiting rfl).trans
    (transact_encode waiting given i s unlocked ok)

/-- The host that issues the requests of well-formed instructions to an unlocked engine gathers all their results
(R335). -/
theorem issue_encode (is : List Instr) (results : List Word) (s : State) (unlocked : s.err = false)
    (ok : ∀ i ∈ is, i.wellFormed = true) :
    issue (is.map encode) results (withPort waiting given s) =
      .next (some (results ++ (answers is s).flatten), withPort waiting (acked (answers is s) given) (effects is s)) := by
  induction is generalizing results s given with
  | nil => rw [answers, List.flatten_nil, List.append_nil]; rfl
  | cons i is ih =>
    obtain ⟨ok_i, ok_is⟩ := List.forall_mem_cons.mp ok
    have still : (effectOf i s).1.err = false := (effectOf_keeps i s).err.trans unlocked
    rw [List.map_cons, issue_of_ack (transact_encode waiting given i s unlocked ok_i) rfl, ih _ _ _ still ok_is, answers,
      List.flatten_cons, List.append_assoc, acked_cons, effects_cons]

/-- The requests of well-formed instructions, waiting for an unlocked engine, all complete (R72). -/
theorem run_encode (is : List Instr) (s : State) (unlocked : s.err = false) (ok : ∀ i ∈ is, i.wellFormed = true) :
    core.run is.length (withPort ((is.map encode).map .request ++ waiting) given s) =
      .next (withPort waiting (acked (answers is s) given) (effects is s)) := by
  induction is generalizing s given with
  | nil => rfl
  | cons i is ih =>
    obtain ⟨ok_i, ok_is⟩ := List.forall_mem_cons.mp ok
    have still : (effectOf i s).1.err = false := (effectOf_keeps i s).err.trans unlocked
    have next := step_encode ((is.map encode).map .request ++ waiting) given i s unlocked ok_i
    rw [answers, acked_cons, effects_cons]
    exact (run_succ core is.length _ _ next).trans (ih _ _ still ok_is)

end Sys2Proof.Proofs
end

section
/-! PROOFS. The host's digest procedure (spec R335, R336, R338, R312). The idea: its requests are those of INIT, of
instructions that put one block after another into H, and of eight reads; all but the reads answer no word, and H is defined
from INIT on. -/

namespace Sys2Proof.Proofs

open Sys2Proof.Machine Sys2Proof.Safety Sys2Proof.HostSide

/-! ### The instructions of the procedure -/

/-- The instructions that hand a block to the engine (R111, R335). -/
def blockInstrs (form : BlockForm) (b : Block) : List Instr :=
  match form with
  | .whole => [.compressBlock b]
  | .stepwise => [.loadBlock b, .expandAll, .loadV, .roundsAll, .accum]

/-- Those of the blocks j, j + 1, ... in order, block j in its own form (R335). -/
def blocksInstrs (form : Nat → BlockForm) : Nat → List Block → List Instr
  | _, [] => []
  | j, b :: blocks => blockInstrs (form j) b ++ blocksInstrs form (j + 1) blocks

/-- READ_STATE (R111). -/
def readInstrs : List Instr := (List.range 8).map fun k => .readH (BitVec.ofNat 8 k)

/-- The instructions of the digest procedure (R335). -/
def digestInstrs (form : Nat → BlockForm) (blocks : List Block) : List Instr :=
  .init :: blocksInstrs form 0 blocks ++ readInstrs

theorem blockRequests_eq (form : BlockForm) (b : Block) :
    blockRequests form b.toList = (blockInstrs form b).map encode := by
  cases form <;>
    simp [blockRequests, compressRequest, blockStepwise, blockInstrs, encode, Instr.op, Instr.arg, Instr.operands, cmdWord]

theorem blocksRequests_eq (form : Nat → BlockForm) (j : Nat) (blocks : List Block) :
    blocksRequests form j (blocks.map Vector.toList) = (blocksInstrs form j blocks).map encode := by
  induction blocks generalizing j with
  | nil => rfl
  | cons b blocks ih =>
    rw [List.map_cons, blocksRequests, blockRequests_eq, ih, blocksInstrs, List.map_append]

/-- The blocks of a message as the engine takes them. -/
def engineBlocks (message : List Byte) : List Block := (messageBlocks message).filterMap blockOf

/-- Lists of 16 words are blocks, and none is dropped. -/
theorem map_toList_filterMap_blockOf (wss : List (List Word)) (sixteen : ∀ ws ∈ wss, ws.length = 16) :
    (wss.filterMap blockOf).map Vector.toList = wss := by
  induction wss with
  | nil => rfl
  | cons ws wss ih =>
    obtain ⟨size, sizes⟩ := List.forall_mem_cons.mp sixteen
    have block : blockOf ws = some ⟨⟨ws⟩, size⟩ := dif_pos size
    rw [List.filterMap_cons_some block, List.map_cons, ih sizes]
    rfl

/-- The requests of the procedure are those of its instructions (R332, R335). -/
theorem digestRequests_eq (form : Nat → BlockForm) (message : List Byte) (accepted : accepts message = true) :
    digestRequests form message = some ((digestInstrs form (engineBlocks message)).map encode) := by
  have blocks := blocksRequests_eq form 0 (engineBlocks message)
  rw [engineBlocks, map_toList_filterMap_blockOf _ (length_of_mem_messageBlocks message)] at blocks
  rw [digestRequests, if_pos accepted, blocks, digestInstrs, List.map_append, List.map_cons]
  rfl

/-! ### What they do -/

/-- The instruction passes its index check and answers no word. -/
def Silent (i : Instr) : Prop := i.wellFormed = true ∧ ∀ s, (effectOf i s).2 = []

theorem silent_blockInstrs (form : BlockForm) (b : Block) : ∀ i ∈ blockInstrs form b, Silent i := by
  cases form <;> simp [blockInstrs, Silent, Instr.wellFormed, effectOf]

theorem silent_blocksInstrs (form : Nat → BlockForm) (j : Nat) (blocks : List Block) :
    ∀ i ∈ blocksInstrs form j blocks, Silent i := by
  induction blocks generalizing j with
  | nil => simp [blocksInstrs]
  | cons b blocks ih => exact List.forall_mem_append.mpr ⟨silent_blockInstrs (form j) b, ih (j + 1)⟩

/-- INIT and the block commands, all before the reads, are silent. -/
theorem silent_beforeReads (form : Nat → BlockForm) (blocks : List Block) :
    ∀ i ∈ .init :: blocksInstrs form 0 blocks, Silent i :=
  List.forall_mem_cons.mpr ⟨⟨rfl, fun _ => rfl⟩, silent_blocksInstrs form 0 blocks⟩

theorem flatten_answers_of_silent (is : List Instr) (s : State) (silent : ∀ i ∈ is, Silent i) :
    (answers is s).flatten = [] := by
  induction is generalizing s with
  | nil => rfl
  | cons i is ih =>
    obtain ⟨⟨-, noWord⟩, others⟩ := List.forall_mem_cons.mp silent
    rw [answers, noWord, List.flatten_cons, ih _ others, List.append_nil]

theorem wellFormed_digestInstrs (form : Nat → BlockForm) (blocks : List Block) :
    ∀ i ∈ digestInstrs form blocks, i.wellFormed = true :=
  List.forall_mem_append.mpr ⟨fun i mem => (silent_beforeReads form blocks i mem).1, by decide⟩

/-- Both forms of a block have the effect of COMPRESS_BLOCK (R311). -/
theorem effects_blockInstrs (form : BlockForm) (b : Block) (s : State) :
    effects (blockInstrs form b) s = compressUpdate b s := by
  cases form <;> rfl

theorem effects_blocksInstrs (form : Nat → BlockForm) (j : Nat) (blocks : List Block) (s : State) :
    effects (blocksInstrs form j blocks) s = effects (blocks.map .compressBlock) s := by
  induction blocks generalizing j s with
  | nil => rfl
  | cons b blocks ih => rw [blocksInstrs, effects_append, effects_blockInstrs, ih]; rfl

/-- READ_H of a defined H answers its word and changes nothing (R73, R202). -/
theorem effectOf_readH (s : State) (hash : Vector Word 8) (k : Nat) (holds : s.h = definedWords hash) (inside : k < 8) :
    effectOf (.readH (BitVec.ofNat 8 k)) s = (s, [wordAt hash k]) := by
  rw [effectOf, indexOf_ofNat k (by omega), holds, readEffect, valueAt_definedWords,
    noteReads_of_defined s .H _ _ (firstUndefined_definedWords .H hash [k])]

/-- READ_H at some indexes. -/
theorem reads_of_defined (s : State) (hash : Vector Word 8) (holds : s.h = definedWords hash) (ks : List Nat)
    (inside : ∀ k ∈ ks, k < 8) :
    effects (ks.map fun k => .readH (BitVec.ofNat 8 k)) s = s ∧
      answers (ks.map fun k => .readH (BitVec.ofNat 8 k)) s = ks.map fun k => [wordAt hash k] := by
  induction ks with
  | nil => exact ⟨rfl, rfl⟩
  | cons k ks ih =>
    obtain ⟨inside_k, inside_ks⟩ := List.forall_mem_cons.mp inside
    obtain ⟨unchanged, words⟩ := ih inside_ks
    rw [List.map_cons, effects_cons, answers, effectOf_readH s hash k holds inside_k]
    exact ⟨unchanged, congrArg ([wordAt hash k] :: ·) words⟩

/-- An array's words in increasing index are its list. -/
theorem map_wordAt_range {n : Nat} (xs : Vector Word n) : (List.range n).map (wordAt xs) = xs.toList := by
  refine List.ext_getElem (by simp) fun k inside _ => ?_
  have lt : k < n := by simpa using inside
  rw [List.getElem_map, List.getElem_range, wordAt_of_lt xs k lt, Vector.getElem_toList]

/-- READ_STATE of a defined H answers its eight words and changes nothing (R111). -/
theorem readInstrs_of_defined (s : State) (hash : Vector Word 8) (holds : s.h = definedWords hash) :
    effects readInstrs s = s ∧ answers readInstrs s = hash.toList.map fun d => [d] := by
  obtain ⟨unchanged, words⟩ := reads_of_defined s hash holds (List.range 8) fun k => List.mem_range.mp
  refine ⟨unchanged, words.trans ?_⟩
  rw [← map_wordAt_range, List.map_map]
  rfl

/-- The words of the digest of a message by the pure functions of the spec (R312). -/
def digestWords (message : List Byte) : Vector Word 8 := chain romK romIv (engineBlocks message)

theorem digest_eq (message : List Byte) (accepted : accepts message = true) :
    digest message = some (assembleDigest (digestWords message).toList) := if_pos accepted

/-- With intact ROMs the procedure's instructions note no read, and after silent ones the last eight answer the words of the
digest, whatever H, V and W held (R200, R311, R202). -/
theorem digestInstrs_spec (form : Nat → BlockForm) (message : List Byte) (s : State) (roms : RomsIntact s) :
    (effects (digestInstrs form (engineBlocks message)) s).undefinedRead = s.undefinedRead ∧
      ∃ silent, silent.flatten = [] ∧
        answers (digestInstrs form (engineBlocks message)) s =
          silent ++ (digestWords message).toList.map fun d => [d] := by
  obtain ⟨k, iv⟩ := roms
  have fromRoms : digestWords message = chain s.k s.iv (engineBlocks message) := by rw [digestWords, k, iv]
  obtain ⟨chained, unread⟩ :=
    effects_compressBlocks (engineBlocks message) { s with h := definedWords s.iv } s.iv rfl
  rw [← effects_blocksInstrs form 0, ← fromRoms] at chained
  rw [← effects_blocksInstrs form 0] at unread
  obtain ⟨unchanged, words⟩ := readInstrs_of_defined
    (effects (.init :: blocksInstrs form 0 (engineBlocks message)) s) (digestWords message) chained
  rw [digestInstrs, effects_append, answers_append, unchanged, words]
  exact ⟨unread, _, flatten_answers_of_silent _ s (silent_beforeReads form _), rfl⟩

/-! ### A NAK -/

/-- A request answered by NAK ends the procedure with no result and a reset (R335). -/
theorem issue_of_nak (r : Request) (rs : List Request) (results : List Word) (s t : State) (code : BitVec 8)
    (runs : transact r s = .next t) (refused : t.responses.head? = some (.nak code)) :
    issue (r :: rs) results s = .next (none, hostReset t) := by
  obtain ⟨earlier, latest⟩ := List.head?_eq_some_iff.mp refused
  have noResults : ackResults t = none := by rw [ackResults, latest]
  simp only [issue, runs, noResults]

/-- A locked engine refuses INIT (R364). -/
theorem transact_init_locked (s : State) (locked : s.err = true) :
    transact (encode .init) s = .next (respond (.nak 0x05) s) := by
  rw [transact_of_decode _ .init s (decodeOfEncode .init), exec_refused .init s ⟨locked, nofun, nofun⟩]

/-! ### The procedure -/

/-- The host assembles the digest from the words it gathered, if it gathered any (R336). -/
theorem computeDigest_of_issue (form : Nat → BlockForm) (message : List Byte) (s : State) (requests : List Request)
    (results : Option (List Word)) (t : State) (given : digestRequests form message = some requests)
    (issued : issue requests [] s = .next (results, t)) :
    computeDigest form message s = some (.next (results.map assembleDigest, t)) := by
  simp only [computeDigest, given, Option.map_some, issued]

/-- On an unlocked engine with intact ROMs the procedure gives the digest (R335, R336). -/
theorem computeDigest_unlocked (form : Nat → BlockForm) (s : State) (message : List Byte) (roms : RomsIntact s)
    (accepted : accepts message = true) (unlocked : s.err = false) :
    ∃ t, computeDigest form message s = some (.next (some (assembleDigest (digestWords message).toList), t)) ∧
      t.err = false ∧ t.undefinedRead = s.undefinedRead := by
  obtain ⟨unread, silent, noWords, words⟩ := digestInstrs_spec form message s roms
  have still := (effects_keeps (digestInstrs form (engineBlocks message)) s).err.trans unlocked
  have issued := issue_encode s.inbox s.responses (digestInstrs form (engineBlocks message)) [] s unlocked
    (wellFormed_digestInstrs form _)
  have gathered : (answers (digestInstrs form (engineBlocks message)) s).flatten = (digestWords message).toList := by
    rw [words, List.flatten_append, noWords, ← List.flatMap_def, List.flatMap_singleton', List.nil_append]
  rw [gathered, List.nil_append, withPort_self] at issued
  exact ⟨_, computeDigest_of_issue form message s _ _ _ (digestRequests_eq form message accepted) issued, still, unread⟩

/-- The procedure's requests, waiting for an unlocked engine with intact ROMs, all complete, and the last eight answers are
the words of the digest (R335). -/
theorem run_digestRequests (form : Nat → BlockForm) (s : State) (message : List Byte) (requests : List Request)
    (roms : RomsIntact s) (accepted : accepts message = true) (unlocked : s.err = false)
    (given : digestRequests form message = some requests) (waiting : s.inbox = requests.map .request) :
    ∃ t, core.run requests.length s = .next t ∧ t.err = false ∧ t.inbox = [] ∧ t.undefinedRead = s.undefinedRead ∧
      t.responses.take 8 = ((digestWords message).toList.map fun d => .ack [d]).reverse := by
  obtain ⟨unread, silent, -, words⟩ := digestInstrs_spec form message s roms
  have still := (effects_keeps (digestInstrs form (engineBlocks message)) s).err.trans unlocked
  have run := run_encode [] s.responses (digestInstrs form (engineBlocks message)) s unlocked
    (wellFormed_digestInstrs form _)
  obtain rfl := Option.some.inj ((digestRequests_eq form message accepted).symm.trans given)
  rw [List.append_nil, ← waiting, withPort_self, words] at run
  rw [List.length_map]
  rw [acked_append, List.map_map] at run
  exact ⟨_, run, still, rfl, unread, List.take_left' (by simp)⟩

/-- Settles O60: the digest of an unlocked engine, in the procedure and in a run; on a locked engine INIT is the NAK. -/
theorem digestProcedureAnswersTheDigest : Obligations.DigestProcedureAnswersTheDigest := by
  refine ⟨fun form s message roms accepted unlocked => ⟨?_, fun requests given waiting => ?_⟩,
    fun form s message accepted locked => ?_, issue_of_nak, fun form s message refused => ?_⟩
  · obtain ⟨t, computed, still, unread⟩ := computeDigest_unlocked form s message roms accepted unlocked
    exact ⟨t, _, digest_eq message accepted, by rw [assembleDigest_length, Vector.length_toList], computed, still, unread⟩
  · obtain ⟨t, run, still, taken, unread, last⟩ :=
      run_digestRequests form s message requests roms accepted unlocked given waiting
    exact ⟨t, _, run, still, taken, unread, Vector.length_toList, last, digest_eq message accepted⟩
  · have issued := issue_of_nak (encode .init)
      ((blocksInstrs form 0 (engineBlocks message) ++ readInstrs).map encode) [] s _ 0x05 (transact_init_locked s locked) rfl
    exact ⟨_, computeDigest_of_issue form message s _ _ _ (digestRequests_eq form message accepted) issued, rfl⟩
  · simp [computeDigest, digestRequests, digest, refused]

end Sys2Proof.Proofs
end

section
/-! PROOFS. Exceptions, the lockout and the host's actions (spec R361 to R365, R369, R376, R400). The idea:
a transaction either raises its first failing check or makes its instruction's effect, and a locked engine has no effect
left but the two status reads, so all it does is respond. -/

namespace Sys2Proof.Proofs

open Sys2Proof.Machine Sys2Proof.Safety

/-! ### Taking an error -/

/-- An error changes nothing but the response and, when it is the first and not LOCKED, the recording (R361, R363). -/
theorem raiseError_eq (c : ErrorCode) (cmd : Word) (s : State) :
    raiseError c cmd s = .next
      { s with
        responses := .nak c.code :: s.responses
        err := if c ≠ .locked ∧ s.err = false then true else s.err
        errCode := if c ≠ .locked ∧ s.err = false then c.code else s.errCode
        errInfo := if c ≠ .locked ∧ s.err = false then cmd else s.errInfo } := by
  by_cases first : c ≠ .locked ∧ s.err = false
  · simp only [raiseError_first c cmd s first.2 first.1, if_pos first]
  · simp only [raiseError, recordError, respond, if_neg first]

/-- Settles O8: the first failing check is raised, with the request's command word. -/
theorem errorsArePreciseAndRecordedOnce : Obligations.ErrorsArePreciseAndRecordedOnce := by
  intro s r c fails
  rw [transact_of_failing_check s r c fails, raiseError_eq]

/-! ### The locked engine -/

/-- While ERR = 1 an error leaves the state alone: the first error is kept (R363). -/
theorem raiseError_of_err (c : ErrorCode) (cmd : Word) (s : State) (locked : s.err = true) :
    raiseError c cmd s = .next (respond (.nak c.code) s) := by
  rw [raiseError, recordError_of_err s c cmd locked]

/-- Settles O10: an instruction that is neither status read is refused by the locked engine. -/
theorem lockedInstructionsAreRefused : Obligations.LockedInstructionsAreRefused :=
  fun i s locked notStatus notErrinfo => exec_refused i s ⟨locked, notStatus, notErrinfo⟩

theorem exec_readStatus (s : State) : exec .readStatus s = .next (respond (.ack [statusWord s]) s) := rfl

theorem exec_readErrinfo (s : State) : exec .readErrinfo s = .next (respond (.ack [s.errInfo]) s) := rfl

/-- In the locked engine an instruction does nothing but respond (R364). -/
theorem exec_of_err (i : Instr) (s : State) (locked : s.err = true) :
    ∃ response, exec i s = .next (respond response s) := by
  obtain rfl | notStatus := eq_or_ne i .readStatus
  · exact ⟨_, exec_readStatus s⟩
  obtain rfl | notErrinfo := eq_or_ne i .readErrinfo
  · exact ⟨_, exec_readErrinfo s⟩
  exact ⟨_, exec_refused i s ⟨locked, notStatus, notErrinfo⟩⟩

/-- In the locked engine a transaction does nothing but respond (R364). -/
theorem transact_of_err (r : Request) (s : State) (locked : s.err = true) :
    ∃ response, transact r s = .next (respond response s) := by
  unfold transact
  split
  · exact ⟨_, raiseError_of_err _ _ s locked⟩
  · exact exec_of_err _ s locked

/-- Settles O9: another opcode fails check 1, the two status reads run as they do in every state, and no transaction of
the locked engine does more than respond. -/
theorem lockoutUntilReset : Obligations.LockoutUntilReset := by
  intro s locked
  refine ⟨fun r notStatus notErrinfo => ?_, ?_, ?_, fun r => ?_, hostReset_err s⟩
  · have lockedOut : firstFailingCheck s r = some .locked := if_pos ⟨locked, notStatus, notErrinfo⟩
    rw [transact_of_failing_check s r .locked lockedOut, raiseError_locked]
  · exact (transact_of_decode _ .readStatus s (decodeOfEncode .readStatus)).trans (exec_readStatus s)
  · exact (transact_of_decode _ .readErrinfo s (decodeOfEncode .readErrinfo)).trans (exec_readErrinfo s)
  · obtain ⟨response, answered⟩ := transact_of_err r s locked
    exact ⟨respond response s, answered, locked, rfl, rfl, rfl, rfl, rfl⟩

/-! ### The host's actions -/

/-- A transaction answers a next state with exactly one response more and no action taken (R365). -/
theorem transact_responds (r : Request) (s : State) :
    ∃ t response, transact r s = .next t ∧ t.inbox = s.inbox ∧ t.responses = response :: s.responses := by
  cases checked : firstFailingCheck s r with
  | some c =>
    rw [transact_of_failing_check s r c checked, raiseError_eq]
    exact ⟨_, _, rfl, rfl, rfl⟩
  | none =>
    obtain ⟨i, -, -, performed⟩ := transact_of_no_failing_check s r checked
    have kept := effectOf_keeps i s
    exact ⟨_, .ack (effectOf i s).2, performed, kept.inbox, congrArg _ kept.responses⟩

/-- A step whose next host action is a reset is that reset (R400). -/
theorem step_of_reset (s : State) (rest : List HostAction) (waiting : s.inbox = .reset :: rest) :
    step s = .next (hostReset { s with inbox := rest }) := by
  rw [step, takeAction, waiting]

/-- Settles O12: a request is one transaction, a reset is `hostReset`, each on the state without the action. -/
theorem oneResponsePerRequest : Obligations.OneResponsePerRequest := by
  intro s a rest waiting
  cases a with
  | request r =>
    obtain ⟨t, response, answered, inbox, responses⟩ := transact_responds r { s with inbox := rest }
    exact ⟨t, (step_of_request s r rest waiting).trans answered, inbox, response, responses⟩
  | reset => exact ⟨_, step_of_reset s rest waiting, rfl, rfl⟩

/-- Settles O13: with no action to take the step is the idle case. -/
theorem idleEngineHoldsItsState : Obligations.IdleEngineHoldsItsState := by
  intro s idle
  rw [step, takeAction, idle]

end Sys2Proof.Proofs
end

section
/-! PROOFS. The host's reset (spec R400, R44). -/

namespace Sys2Proof.Proofs

open Sys2Proof.Machine Sys2Proof.Safety

/-- Settles O14: H, V and W become new unspecified words; the error registers, the ROMs and the responses are as
`hostReset` sets or keeps them. -/
theorem hostResetClearsTheEngine : Obligations.HostResetClearsTheEngine := by
  intro s
  have hv_undefined : ∀ i < 8, undefinedAt (hostReset s).h i ∧ undefinedAt (hostReset s).v i := fun i inRange =>
    ⟨unspecifiedWords_undefined .H _ i inRange, unspecifiedWords_undefined .V _ i inRange⟩
  have w_undefined : ∀ i < 64, undefinedAt (hostReset s).w i := unspecifiedWords_undefined .W _
  exact ⟨hostReset_err s, hostReset_errCode s, hostReset_errInfo s, hv_undefined, w_undefined, hostReset_k s,
    hostReset_iv s, hostReset_responses s, hostReset_undefinedRead s, hostReset_resets s⟩

end Sys2Proof.Proofs
end
